-- ==== Sys2Proof/Word.lean ====
section
/-! DEFINITION. Word.lean: the byte, the character and the hex digit of the line text (rules R5, R50, R11). -/

namespace Sys2Proof

/-- A byte, an unsigned integer 0 to 255; bit 7 is the most significant (R5). -/
abbrev Byte := BitVec 8

/-- One character of the line text, an 8-bit code (R50, D2). -/
abbrev Ch := BitVec 8

/-- `HexDigit` of R5: the 22 characters `0`-`9`, `A`-`F`, `a`-`f` at their ASCII codes (R50); both letter cases (R51). -/
def isHexDigit (c : Ch) : Bool :=
  (decide (0x30 ≤ c.toNat) && decide (c.toNat ≤ 0x39)) ||
  (decide (0x41 ≤ c.toNat) && decide (c.toNat ≤ 0x46)) ||
  (decide (0x61 ≤ c.toNat) && decide (c.toNat ≤ 0x66))

/-- A character known to be a hex digit: the pending buffer holds nothing else (R10, R11). -/
structure HexDigit where
  code : Ch
  isHex : isHexDigit code = true
  deriving DecidableEq, Repr

end Sys2Proof
end

