-- ==== Sys2Proof/Config.lean ====
section
/-! DEFINITION. Config.lean: the constants of Table P1 and the open parameters of Table P2 (`spec/00_scope.md`, R4).
A constant the source fixes is a numeral here and nowhere else. A parameter the source leaves open is an `opaque`
constant without a body, so that no proof can use a value for it. -/

namespace Sys2Proof

/-! Table P1: constants fixed by the source. -/

/-- `RECS_PER_FRAME`: servo records in one telemetry response. -/
@[simp] abbrev Config.recsPerFrame : Nat := 16
/-- `REC_BYTES`: bytes in one servo record (C9: the stride 14 is normative). -/
@[simp] abbrev Config.recBytes : Nat := 14
/-- `HDR_BYTES`: Length, Opcode, Subcode, ErrorFlags. -/
@[simp] abbrev Config.hdrBytes : Nat := 4
/-- `MIN_TELEM_LEN`: least length of a telemetry response (C1, D9). -/
@[simp] abbrev Config.minTelemLen : Nat := 228
/-- The greatest frame length a one-byte Length can declare (R54). -/
@[simp] abbrev Config.maxFrameLen : Nat := 255
/-- `OPC_TELEM`. -/
@[simp] abbrev Config.opcTelem : Byte := 0xE4
/-- `SUB_TELEM`. -/
@[simp] abbrev Config.subTelem : Byte := 0x01
/-- `ERR_NONE`. -/
@[simp] abbrev Config.errNone : Byte := 0x00
/-- `PAGE0_BASE`: the source's word for this range is "upper"; the number is normative (C4). -/
@[simp] abbrev Config.page0Base : Byte := 0x00
/-- `PAGE1_BASE`. -/
@[simp] abbrev Config.page1Base : Byte := 0x10
/-- `VALID_BIT`: the bit of the flag byte that is the validity. -/
@[simp] abbrev Config.validBit : Nat := 7
/-- `CHARS_PER_BYTE`. -/
@[simp] abbrev Config.charsPerByte : Nat := 2
/-- `INTERVAL` as a whole number of `TIME_UNIT`s of 1 ms (D15). -/
@[simp] abbrev Config.intervalUnits : Nat := 200
/-- `ALLSTOP_LEN`. -/
@[simp] abbrev Config.allStopLen : Nat := 70

/-! Positions inside a 14-byte slot (Table F2, R57). D36, U14: the placement of Raw, Offset and Commanded is the
spec's decision and the first thing to check against the repository; each is one number here. -/

/-- Slot offset of Id. -/
@[simp] abbrev Config.idAt : Nat := 0
/-- Slot offset of Flags. -/
@[simp] abbrev Config.flagsAt : Nat := 1
/-- Slot offset of the low byte of Raw. -/
@[simp] abbrev Config.rawAt : Nat := 2
/-- Slot offset of the low byte of Offset. -/
@[simp] abbrev Config.offsetAt : Nat := 4
/-- Slot offset of the low byte of Commanded. -/
@[simp] abbrev Config.commandedAt : Nat := 6
/-- First of the six ignored slot offsets 8 to 13. -/
@[simp] abbrev Config.ignoredAt : Nat := 8

/-! Table P2: open parameters. -/

/-- The least finite `BUF_CAP`: the characters of the largest frame (D7). -/
@[simp] abbrev Config.minBufCap : Nat := 510

/-- What a finite `BUF_CAP` holds beyond 510 characters, or `none` for an unbounded buffer. OPEN (D7, log 10). -/
opaque Config.capSlack : Option Nat

/-- `BUF_CAP`: a natural number of characters, at least 510, or unbounded (`none`) (R82, D7). -/
def Config.bufCap : Option Nat := Config.capSlack.map (Config.minBufCap + ·)

/-- Byte `i` of `Obf(x)`. OPEN (D19, R155, log 9). -/
opaque Config.obfByte : List Byte → Nat → Byte

/-- `Obf`: total, deterministic, length-preserving; nothing else may be assumed of it (R155). Every length-preserving
function is of this form. -/
def Config.obf (x : List Byte) : List Byte := (List.range x.length).map (Config.obfByte x)

/-- `Cks`: total, deterministic, from byte sequences (the empty one included) to one byte. OPEN (R156, D19, log 9). -/
opaque Config.cks : List Byte → Byte

/-- Byte `i` of `ALLSTOP_PRE` below the last. OPEN (R153, D21, log 9). -/
opaque Config.allStopByte : Nat → Byte

/-- `ALLSTOP_PRE`: 70 bytes, the last 0xFF, and nothing else is assumed (R153). -/
def Config.allStopPre : List Byte :=
  (List.range (Config.allStopLen - 1)).map Config.allStopByte ++ [0xFF]

/-- `INIT_FIELDS(i)`, the value drawn for `raw`. OPEN (R16, D11, log 8). -/
opaque Config.initRaw : Fin 32 → BitVec 16
/-- `INIT_FIELDS(i)`, the value drawn for `offset`. OPEN (R16, D11, log 8). -/
opaque Config.initOffset : Fin 32 → BitVec 16
/-- `INIT_FIELDS(i)`, the value drawn for `commanded`. OPEN (R16, D11, log 8). -/
opaque Config.initCommanded : Fin 32 → BitVec 16

end Sys2Proof
end

