-- ==== Sys2Proof/Syntax.lean ====
section
/-! DEFINITION. Syntax.lean: the operations and wire kinds of `spec/opcode_table.json`, one constructor a row, with
their operands (Tables F1, F2 and F3), and the places their codes are read from. -/

namespace Sys2Proof

/-- A servo identifier, 0x00 to 0x1F: 5 bits, so no other value can be presented (R13, R124, D13; `NUM_IDS` = 32). -/
abbrev Id := Fin 32

/-- A page: one half of the identifier space (R9). One bit wherever the spec writes `page` or `nextPage`. -/
inductive Page where
  | page0
  | page1
  deriving DecidableEq, Repr

/-- The operand bytes of one 14-byte slot, its Id apart (Table F2): the Id of an accepted frame is `base + k`. -/
structure Slot where
  /-- Flags: bit 7 is the validity, bits 6 to 0 are ignored (R57, R65). -/
  flags : Byte
  /-- Raw, two's complement (R105). -/
  raw : BitVec 16
  /-- Offset, two's complement (R105). -/
  offset : BitVec 16
  /-- Commanded, two's complement (R105). -/
  commanded : BitVec 16
  /-- Slot offsets 8 to 13, six ignored bytes (R57, R65). -/
  ignored : Vector Byte 6
  deriving DecidableEq, Repr

/-- The operands of a telemetry response: 16 slots, and the bytes from frame offset 228 on, the last of which is the
Checksum where there is one (R44, R56). -/
structure Telem where
  slots : Vector Slot 16
  tail : List Byte
  deriving DecidableEq, Repr

/-- The rows of `spec/opcode_table.json`, in the table's order. -/
inductive Instr where
  /-- DESYNC: a leading Length byte of 0 (R63, R83). -/
  | desync
  /-- TELEM_PAGE0: an accepted telemetry response of page 0 (R56, R58, R100). -/
  | telemPage0 (t : Telem)
  /-- TELEM_PAGE1: an accepted telemetry response of page 1. -/
  | telemPage1 (t : Telem)
  /-- OTHER_FRAME: every extracted frame that is not an accepted telemetry response (R59, R64). -/
  | otherFrame (frame : List Byte)
  /-- READ_REQ: the read request before `FINALIZE` (R60). -/
  | readReq (page : Page)
  /-- ALL_STOP: the all-stop before `FINALIZE` (R61). -/
  | allStop
  /-- FEED (R80). -/
  | feed (chunk : List Ch)
  /-- BUF_RESET (R88). -/
  | bufReset
  /-- STORE_GET (R124). -/
  | storeGet (id : Id)
  /-- SET_CONT with operand 1 (R131). -/
  | setCont1
  /-- SET_CONT with operand 0 (R132). -/
  | setCont0
  /-- REQ_SINGLE (R133). -/
  | reqSingle
  /-- PACER_TICK (R135): `dt` is a natural number of `TIME_UNIT`s, zero allowed, no upper bound (D32). -/
  | pacerTick (dt : Nat)
  /-- BUILD_READ (R150). -/
  | buildRead (page : Page)
  /-- BUILD_STOP (R152). -/
  | buildStop
  /-- HW_RESET (R190). -/
  | hwReset
  /-- EXTRACT, internal (R83, R84). -/
  | extract
  /-- DECODE, internal (R100). -/
  | decodeFrame (frame : List Byte)
  /-- STORE_INIT, internal (R120). -/
  | storeInit
  /-- STORE_UPDATE, internal (R122). -/
  | storeUpdate (id : Id) (v : Bool) (raw off cmd : BitVec 16)
  /-- ISSUE_REQUEST, internal (R134). -/
  | issueRequest
  /-- FINALIZE, internal (R154). -/
  | finalize (pre : List Byte)
  /-- RX_CHECK, internal (R158). -/
  | rxCheck (frame : List Byte)
  /-- HOST_TICK, pseudo-operation (R68, R140). -/
  | hostTick (dt : Nat)
  /-- FEED_BYTES, pseudo-operation (R68). -/
  | feedBytes (f : List Byte)
  /-- FEED_CHARS, pseudo-operation (R68). -/
  | feedChars (t : List Ch)
  /-- DRAIN, pseudo-operation (R68). -/
  | drain
  deriving DecidableEq, Repr

/-- What the host can present to the block: a command with its 4-bit code (Table F3) and its operand bytes (log 2), or
the reset input. -/
inductive HostInput where
  | command (code : BitVec 4) (operand : List Byte)
  | reset
  deriving DecidableEq, Repr

/-- The three places a row of the table is read from: the host's side (Table F3), the head of the inbound stream as
bytes (Tables F1, F2), an outbound frame before `FINALIZE` (R60, R61). -/
inductive Code where
  | host (x : HostInput)
  | wire (bytes : List Byte)
  | outbound (bytes : List Byte)
  deriving DecidableEq, Repr

/-- Why a code is no instruction. -/
inductive Reject where
  /-- Command codes 0x0 and 0x9 to 0xF are unassigned (R67, U16). -/
  | unassignedCode (code : BitVec 4)
  /-- The command has another number of operand bytes than its row (log 2). -/
  | operandLength (code : BitVec 4)
  /-- An identifier above 0x1F cannot be presented (R124, U17). -/
  | idOutOfRange (b : Byte)
  /-- The operand is one bit (R131, R132, R150). -/
  | notABit (b : Byte)
  /-- The stream does not yet hold the item its Length declares: the extractor waits (R83, R84). -/
  | wireIncomplete
  /-- The bytes are neither of the two outbound frames the block builds (R60, R61). -/
  | notOutbound
  deriving DecidableEq, Repr

end Sys2Proof
end

