-- ==== Sys2Proof/Machine/State.lean ====
section
/-! DEFINITION. Machine/State.lean: the block's state (Table of `spec/10_state.md` §6, R22), the model's own fields for
what a transaction hands to the host and what the host holds, the reasons a step can stop, and the reset state. -/

namespace Sys2Proof.Machine

/-- A servo record (R13, R14). `calibrated` is no field: it is derived at each read (R15). -/
structure Record where
  /-- The constant field: record `i` has `identifier = i` (R13). -/
  identifier : Id
  isValid : Bool
  /-- `s16`, two's complement (R14). -/
  raw : BitVec 16
  /-- `s16` (R14). -/
  offset : BitVec 16
  /-- `s16` (R14). -/
  commanded : BitVec 16
  deriving DecidableEq, Repr

/-- The two names of the fault set (R21). -/
inductive FaultName where
  | hexFault
  | bufOverflow
  deriving DecidableEq, Repr

/-- `fault`, a set over the two names: two sticky bits (R21, D23). -/
structure FaultSet where
  hexFault : Bool
  bufOverflow : Bool
  deriving DecidableEq, Repr

/-- The four kinds of event (R177). -/
inductive Event where
  | pageUpdate (p : Page)
  | modeChange (enabled : Bool)
  | tx (bytes : List Byte)
  | rxCheck (ok : Bool)
  deriving DecidableEq, Repr

/-- The tuple `STORE_GET` returns (R124): `calibrated` is an exact integer (R125). -/
structure RecordView where
  identifier : Id
  isValid : Bool
  raw : BitVec 16
  offset : BitVec 16
  commanded : BitVec 16
  calibrated : Int
  deriving DecidableEq, Repr

/-- The value a transaction returns (R66, D1). -/
inductive Result where
  | nothing
  | record (r : RecordView)
  | bytes (b : List Byte)
  | truth (ok : Bool)
  deriving DecidableEq, Repr

/-- Why the machine stops with a fault. The block's own two faults are no stop: they are bits of `State.fault`, and the
machine goes on (R176). -/
inductive Fault where
  /-- An internal operation or wire kind was given an operand outside the domain its rule states (R54, R59, R154,
  R158; `WellFormed` is false of it). No decoded code has such an operand. Raised by the meanings of TELEM_PAGE0,
  TELEM_PAGE1, OTHER_FRAME, FINALIZE and RX_CHECK. Safe: the spec gives no effect there (log 16). -/
  | operandDomain
  deriving DecidableEq, Repr

/-- Why the machine has no meaning for what it is given. -/
inductive Refusal where
  /-- Raised by `exec` only, for an instruction whose meaning is not written. Safe: it stops. -/
  | notModelled (mnemonic : String)
  /-- Raised by `step` when the host's input is no instruction: the spec says such an input cannot be presented (R67,
  R124, U16, U17). Safe: it stops (log 17). -/
  | cannotBePresented (why : Reject)
  deriving DecidableEq, Repr

/-- The machine's state. The first six fields are the block's whole state (R22); the other four are the model's own. -/
structure State where
  /-- The pending buffer; index 0 is the oldest character (R10, R11). -/
  buf : List HexDigit
  /-- The servo store, indexed by identifier (R13). -/
  store : Vector Record 32
  /-- `continuousModeEnabled` (R17): `Idle` is `false`, `Continuous` is `true` (R130). -/
  cont : Bool
  /-- `nextPageToPoll` (R17). -/
  nextPage : Page
  /-- `elapsedTimerSec` as a natural number of `TIME_UNIT`s, unbounded (R17, R183). -/
  elapsed : Nat
  /-- The fault set (R21). -/
  fault : FaultSet
  /-- MODEL'S OWN: the events delivered so far, in emission order (R40, R177; log 11). -/
  events : List Event
  /-- MODEL'S OWN: the value the last transaction returned (D1; log 11). -/
  result : Result
  /-- MODEL'S OWN: the host's line queue, oldest line first (R42, R140; log 12). -/
  lineQueue : List (List Ch)
  /-- MODEL'S OWN: the transactions the host has yet to issue, in issue order (R40, R140; log 1). -/
  pending : List HostInput
  deriving DecidableEq, Repr

/-- The empty fault set. -/
def FaultSet.empty : FaultSet := ⟨false, false⟩

/-- A fresh record: invalid, its values the draw `INIT_FIELDS(i)` (R16, R120; log 8). -/
def initRecord (i : Id) : Record where
  identifier := i
  isValid := false
  raw := Config.initRaw i
  offset := Config.initOffset i
  commanded := Config.initCommanded i

/-- The store right after `STORE_INIT` (R120). -/
def initStore : Vector Record 32 := Vector.ofFn initRecord

/-- Table Z1 (R190), and the model's own fields empty (log 1, log 11, log 12). -/
def State.reset : State where
  buf := []
  store := initStore
  cont := false
  nextPage := .page0
  elapsed := 0
  fault := FaultSet.empty
  events := []
  result := .nothing
  lineQueue := []
  pending := []

end Sys2Proof.Machine
end

