-- ==== Sys2Proof/Machine/Flags.lean ====
section
/-! DEFINITION. Machine/Flags.lean: the bits the spec computes: the validity bit of a flag byte and the fault set. -/

namespace Sys2Proof.Machine

/-- `isValid` is bit 7 of the flag byte (R105); bits 6 to 0 are ignored (R65). -/
def validity (flags : Byte) : Bool := flags.getLsbD Config.validBit

/-- `fault ∪ {kind}` (R176). -/
def FaultSet.insert (k : FaultName) (f : FaultSet) : FaultSet :=
  match k with
  | .hexFault => { f with hexFault := true }
  | .bufOverflow => { f with bufOverflow := true }

/-- Membership in the fault set. -/
def FaultSet.has (k : FaultName) (f : FaultSet) : Bool :=
  match k with
  | .hexFault => f.hexFault
  | .bufOverflow => f.bufOverflow

end Sys2Proof.Machine
end

