-- ==== Sys2Proof/Decode.lean ====
section
/-! DEFINITION. Decode.lean: hex text, byte order, the frame checks, the decoders of the three places of `Code`, and
the encoders written from the same tables. -/

namespace Sys2Proof

/-! ## Hex text and byte order (R7, R32, R33) -/

/-- `hexval(c)`: `0`-`9` give 0 to 9, `A`-`F` and `a`-`f` give 10 to 15 (R7, R51). -/
def hexval (d : HexDigit) : Nat :=
  if d.code.toNat ≤ 0x39 then d.code.toNat - 0x30
  else if d.code.toNat ≤ 0x46 then d.code.toNat - 0x37
  else d.code.toNat - 0x57

/-- `HexByte(c1, c0)`: the first character of a pair is the high nibble (R7, R32, D3). -/
def hexByte (c1 c0 : HexDigit) : Byte := BitVec.ofNat 8 (16 * hexval c1 + hexval c0)

/-- `HexDec(t)` (R7); a last unpaired character spells no byte. -/
def hexDec : List HexDigit → List Byte
  | c1 :: c0 :: t => hexByte c1 c0 :: hexDec t
  | _ => []

/-- The upper-case digit of a nibble (R7, D22). -/
def nibbleCode (n : Nat) : Ch := if n < 10 then BitVec.ofNat 8 (0x30 + n) else BitVec.ofNat 8 (0x37 + n)

theorem isHexDigit_nibbleCode (n : Fin 16) : isHexDigit (nibbleCode n) = true := by
  revert n; decide

/-- The upper-case hex digit of a nibble (R7, D22). -/
def nibbleDigit (n : Fin 16) : HexDigit := ⟨nibbleCode n, isHexDigit_nibbleCode n⟩

/-- The digit of `b[7:4]` (R7). -/
def hiDigit (b : Byte) : HexDigit := nibbleDigit ⟨b.toNat / 16, by have := b.isLt; omega⟩

/-- The digit of `b[3:0]` (R7). -/
def loDigit (b : Byte) : HexDigit := nibbleDigit ⟨b.toNat % 16, by omega⟩

/-- `HexEnc(f)` (R7, D22). -/
def hexEnc : List Byte → List HexDigit
  | [] => []
  | b :: f => hiDigit b :: loDigit b :: hexEnc f

/-- `HexEnc(f)` as the line's characters. -/
def hexText (f : List Byte) : List Ch := (hexEnc f).map HexDigit.code

/-- The alphabet test of R81: the chunk as hex digits, or `none` when a character is not in `HexDigit`. -/
def toHexDigits : List Ch → Option (List HexDigit)
  | [] => some []
  | c :: cs =>
    if h : isHexDigit c = true then
      match toHexDigits cs with
      | some ds => some (⟨c, h⟩ :: ds)
      | none => none
    else none

/-- `s16(lo, hi)` as a 16-bit two's-complement word: the low byte comes first (R7, R33). -/
def s16 (lo hi : Byte) : BitVec 16 := hi ++ lo

/-- The low byte of a 16-bit field (R33). -/
def loByte (w : BitVec 16) : Byte := w.extractLsb' 0 8

/-- The high byte of a 16-bit field (R33). -/
def hiByte (w : BitVec 16) : Byte := w.extractLsb' 8 8

/-- `frame[i]`, read only at positions below `len(frame)`: the length tests of R84 and R101 come first. -/
def byteAt (frame : List Byte) (i : Nat) : Byte := frame.getD i 0

/-- The little-endian field at frame offsets `o` and `o+1` (R33). -/
def s16At (frame : List Byte) (o : Nat) : BitVec 16 := s16 (byteAt frame o) (byteAt frame (o + 1))

/-- The frame offset of slot `k`: `4 + 14 * k` (R44). -/
def slotAt (k : Nat) : Nat := Config.hdrBytes + Config.recBytes * k

/-! ## Frame checks (R54, R101, R103) -/

/-- The first identifier of a page (Table P1, C4). -/
def pageBase : Page → Byte
  | .page0 => Config.page0Base
  | .page1 => Config.page1Base

/-- A byte sequence that is a frame: its first byte, 1 to 255, is its length (R54, R84). -/
def isFrame (f : List Byte) : Bool :=
  match f with
  | [] => false
  | b :: _ => b != 0 && b.toNat == f.length

/-- `Coarse(frame)` (R101); an absent byte is a mismatch. -/
def coarse (f : List Byte) : Bool :=
  decide (Config.minTelemLen ≤ f.length) && f[1]? == some Config.opcTelem &&
    f[2]? == some Config.subTelem && f[3]? == some Config.errNone

/-- `Fine(frame)` (R103): all 16 identifiers, before any record is written. -/
def fine (f : List Byte) : Bool :=
  match f[Config.hdrBytes]? with
  | none => false
  | some base =>
    (base == pageBase .page0 || base == pageBase .page1) &&
      (List.range Config.recsPerFrame).all fun k => f[slotAt k]? == some (base + BitVec.ofNat 8 k)

/-- A frame that passes both checks: an accepted telemetry response (R59). -/
def isTelemetry (f : List Byte) : Bool := coarse f && fine f

/-! ## Decoding -/

/-- The operand fields of slot `k` of a frame (Table F2). -/
def slotOf (f : List Byte) (k : Nat) : Slot where
  flags := byteAt f (slotAt k + Config.flagsAt)
  raw := s16At f (slotAt k + Config.rawAt)
  offset := s16At f (slotAt k + Config.offsetAt)
  commanded := s16At f (slotAt k + Config.commandedAt)
  ignored := Vector.ofFn fun j : Fin 6 => byteAt f (slotAt k + Config.ignoredAt + j)

/-- The operands of a telemetry response (R44). -/
def telemOf (f : List Byte) : Telem where
  slots := Vector.ofFn fun k : Fin 16 => slotOf f k
  tail := f.drop Config.minTelemLen

/-- The kind of an extracted frame (R59). -/
def frameKind (f : List Byte) : Instr :=
  if isTelemetry f then
    if byteAt f Config.hdrBytes = pageBase .page0 then .telemPage0 (telemOf f) else .telemPage1 (telemOf f)
  else .otherFrame f

/-- The item at the head of the inbound stream, as bytes (R62, R63): the length is told by the first byte alone. -/
def decodeWire (bytes : List Byte) : Except Reject Instr :=
  match bytes with
  | [] => .error .wireIncomplete
  | b :: _ =>
    if b = 0 then .ok .desync
    else if bytes.length < b.toNat then .error .wireIncomplete
    else .ok (frameKind (bytes.take b.toNat))

/-- The item at the head of the pending buffer, or `none` while it is incomplete (R83, R84). -/
def bufHead (buf : List HexDigit) : Option Instr :=
  match decodeWire (hexDec buf) with
  | .ok i => some i
  | .error _ => none

/-- The read request before `FINALIZE`, `READ_REQ_PRE` (R60, Table P1). -/
def readReqPre (page : Page) : List Byte := [0x07, 0x01, 0x00, 0x05, pageBase page, 0xE0, 0xFF]

/-- An outbound frame before `FINALIZE` (R60, R61). -/
def decodeOutbound (bytes : List Byte) : Except Reject Instr :=
  if bytes = readReqPre .page0 then .ok (.readReq .page0)
  else if bytes = readReqPre .page1 then .ok (.readReq .page1)
  else if bytes = Config.allStopPre then .ok .allStop
  else .error .notOutbound

/-- A natural number from its operand bytes, low byte first (log 2). -/
def natOfBytes : List Byte → Nat
  | [] => 0
  | b :: bs => b.toNat + 256 * natOfBytes bs

/-- The operand bytes of a natural number, low byte first, none for 0 (log 2); `fuel` bounds their number. -/
def bytesOfNat : (fuel : Nat) → Nat → List Byte
  | 0, _ => []
  | fuel + 1, n => if n = 0 then [] else BitVec.ofNat 8 n :: bytesOfNat fuel (n / 256)

/-- An operand that is one byte. -/
def oneByte (code : BitVec 4) (operand : List Byte) (k : Byte → Except Reject Instr) : Except Reject Instr :=
  match operand with
  | [b] => k b
  | _ => .error (.operandLength code)

/-- A command that has no operand. -/
def noOperand (code : BitVec 4) (operand : List Byte) (i : Instr) : Except Reject Instr :=
  match operand with
  | [] => .ok i
  | _ => .error (.operandLength code)

/-- An operand that is one bit: `i0` for 0, `i1` for 1. -/
def oneBit (code : BitVec 4) (operand : List Byte) (i0 i1 : Instr) : Except Reject Instr :=
  oneByte code operand fun b =>
    if b = 0 then .ok i0 else if b = 1 then .ok i1 else .error (.notABit b)

/-- The command port (Table F3, R67). -/
def decodeCommand (code : BitVec 4) (operand : List Byte) : Except Reject Instr :=
  match code.toNat with
  | 1 => .ok (.feed operand)
  | 2 => noOperand code operand .bufReset
  | 3 => oneByte code operand fun b =>
      if h : b.toNat < 32 then .ok (.storeGet ⟨b.toNat, h⟩) else .error (.idOutOfRange b)
  | 4 => oneBit code operand .setCont0 .setCont1
  | 5 => noOperand code operand .reqSingle
  | 6 => .ok (.pacerTick (natOfBytes operand))
  | 7 => oneBit code operand (.buildRead .page0) (.buildRead .page1)
  | 8 => noOperand code operand .buildStop
  | _ => .error (.unassignedCode code)

/-- What the host presents: a command, or the reset input (Table F3). -/
def decodeHost : HostInput → Except Reject Instr
  | .command code operand => decodeCommand code operand
  | .reset => .ok .hwReset

/-- The decoder: total on every code, rejecting by name. -/
def decode : Code → Except Reject Instr
  | .host x => decodeHost x
  | .wire bytes => decodeWire bytes
  | .outbound bytes => decodeOutbound bytes

/-! ## Encoding -/

/-- The 14 bytes of a slot (Table F2). -/
def encodeSlot (id : Byte) (sl : Slot) : List Byte :=
  [id, sl.flags, loByte sl.raw, hiByte sl.raw, loByte sl.offset, hiByte sl.offset,
   loByte sl.commanded, hiByte sl.commanded] ++ sl.ignored.toList

/-- The bytes of a telemetry response (Tables F1 and F2, R56, R58). -/
def encodeTelem (p : Page) (t : Telem) : List Byte :=
  [BitVec.ofNat 8 (Config.minTelemLen + t.tail.length), Config.opcTelem, Config.subTelem, Config.errNone] ++
    ((List.finRange 16).flatMap fun k : Fin 16 => encodeSlot (pageBase p + BitVec.ofNat 8 k.val) t.slots[k]) ++ t.tail

/-- The one-bit operand of a page (R150). -/
def pageOperand : Page → List Byte
  | .page0 => [0]
  | .page1 => [1]

/-- The input that issues `FEED` with this chunk. -/
def feedInput (chunk : List Ch) : HostInput := .command 1 chunk

/-- The input that issues `PACER_TICK`. -/
def tickInput (dt : Nat) : HostInput := .command 6 (bytesOfNat dt dt)

/-- The code of an instruction; `none` for the internal operations and the pseudo-operations, which have no code
(Table F3; log 3). -/
def encode : Instr → Option Code
  | .desync => some (.wire [0])
  | .telemPage0 t => some (.wire (encodeTelem .page0 t))
  | .telemPage1 t => some (.wire (encodeTelem .page1 t))
  | .otherFrame f => some (.wire f)
  | .readReq page => some (.outbound (readReqPre page))
  | .allStop => some (.outbound Config.allStopPre)
  | .feed chunk => some (.host (feedInput chunk))
  | .bufReset => some (.host (.command 2 []))
  | .storeGet id => some (.host (.command 3 [BitVec.ofNat 8 id.val]))
  | .setCont1 => some (.host (.command 4 [1]))
  | .setCont0 => some (.host (.command 4 [0]))
  | .reqSingle => some (.host (.command 5 []))
  | .pacerTick dt => some (.host (tickInput dt))
  | .buildRead page => some (.host (.command 7 (pageOperand page)))
  | .buildStop => some (.host (.command 8 []))
  | .hwReset => some (.host .reset)
  | .extract => none
  | .decodeFrame _ => none
  | .storeInit => none
  | .storeUpdate _ _ _ _ _ => none
  | .issueRequest => none
  | .finalize _ => none
  | .rxCheck _ => none
  | .hostTick _ => none
  | .feedBytes _ => none
  | .feedChars _ => none
  | .drain => none

/-- The transactions a pseudo-operation stands for (R68, R140), given the host's line queue. -/
def expansion (queue : List (List Ch)) : Instr → Option (List HostInput)
  | .hostTick dt =>
    match queue with
    | [] => some [tickInput dt]
    | l :: _ => some [feedInput l, tickInput dt]
  | .feedBytes f => some [feedInput (hexText f)]
  | .feedChars t => some (t.map fun c => feedInput [c])
  | .drain => some [feedInput []]
  | _ => none

/-! ## The table's words (log 4) -/

/-- Byte `j` of a number, byte 0 its least significant. -/
def numByte (w j : Nat) : Byte := BitVec.ofNat 8 (w / 256 ^ j)

/-- The least telemetry response whose bytes 0 to 4 are given: the identifiers go on from byte 4, every operand byte is
0 (log 4). -/
def tableTelem (len : Byte) (op sub err base : Byte) : List Byte :=
  [if len = 0 then BitVec.ofNat 8 Config.minTelemLen else len, op, sub, err] ++
    ((List.range Config.recsPerFrame).flatMap fun k => (base + BitVec.ofNat 8 k) :: List.replicate 13 0) ++
    List.replicate (len.toNat - Config.minTelemLen) 0

/-- The operand bytes of zeros a command has (log 2, log 4). -/
def zeroOperand (code : BitVec 4) : List Byte :=
  match code.toNat with
  | 3 | 4 | 7 => [0]
  | _ => []

/-- The code that a word of `spec/opcode_table.json` stands for. The table numbers a wire row with byte 0 the most
significant, and gives a command row 4 bits; the bits of a row that its `match` and `mask` leave out, and the row's
own words fix, are filled in from those words (log 4). -/
def tableCode (nbits w : Nat) : Code :=
  if nbits ≤ 8 then
    if w % 256 = 0 then .wire [0]
    else .host (.command (BitVec.ofNat 4 w) (zeroOperand (BitVec.ofNat 4 w)))
  else if nbits ≤ 32 ∧ numByte w 3 = 0x07 then
    .outbound [numByte w 3, numByte w 2, numByte w 1, numByte w 0, 0x00, 0xE0, 0xFF]
  else
    .wire (tableTelem (numByte w 4) (numByte w 3) (numByte w 2) (numByte w 1) (numByte w 0))

/-- The instruction the decoder reads from a word of the opcode table (fixed name of the host). -/
def decodeTableWord (nbits w : Nat) : Option Instr :=
  match decode (tableCode nbits w) with
  | .ok i => some i
  | .error _ => none

end Sys2Proof
end

