-- ==== Sys2Proof/Machine/Operands.lean ====
section
/-! DEFINITION. Machine/Operands.lean: values computed from operands and configuration alone: pages, identifiers, the
finalizing step, the byte check, the capacity test, the view of a record. -/

namespace Sys2Proof.Machine

/-- `1 - nextPage` (R134). -/
def flipPage : Page → Page
  | .page0 => .page1
  | .page1 => .page0

/-- The identifier `base + k` of slot `k` of a page (R58). -/
def pageId (p : Page) (k : Fin 16) : Id :=
  match p with
  | .page0 => ⟨k.val, by omega⟩
  | .page1 => ⟨16 + k.val, by omega⟩

/-- The page a base identifier names (R109): 0 for 0x00, else 1. -/
def pageOfBase (base : Byte) : Page := if base = pageBase .page0 then .page0 else .page1

/-- `FINALIZE(pre)` for a given transform and checksum (R154): transform the whole, then write the checksum of all
bytes but the last over the last. -/
def finalizeWith (obf : List Byte → List Byte) (cks : List Byte → Byte) (pre : List Byte) : List Byte :=
  let body := (obf pre).take (pre.length - 1)
  body ++ [cks body]

/-- `FINALIZE(pre)` (R154). -/
def finalizeFrame (pre : List Byte) : List Byte := finalizeWith Config.obf Config.cks pre

/-- `RX_CHECK(frame)` for a given checksum (R158). -/
def byteCheckWith (cks : List Byte → Byte) (frame : List Byte) : Bool :=
  frame[frame.length - 1]? == some (cks (frame.take (frame.length - 1)))

/-- `RX_CHECK(frame)` (R158): the frame as received, no transform undone. -/
def byteCheck (frame : List Byte) : Bool := byteCheckWith Config.cks frame

/-- The finalized read request of a page (R150). -/
def readRequest (page : Page) : List Byte := finalizeFrame (readReqPre page)

/-- The finalized all-stop (R152). -/
def stopCommand : List Byte := finalizeFrame Config.allStopPre

/-- The characters the host transmits for a `tx` event (R141, R151). -/
def txText (bytes : List Byte) : List Ch := hexText bytes

/-- `n` characters do not fit a buffer of this capacity (R82): a finite one is exceeded, an unbounded one never. -/
def exceedsCapOf (capacity : Option Nat) (n : Nat) : Bool :=
  match capacity with
  | none => false
  | some cap => decide (cap < n)

/-- `n` characters do not fit the pending buffer (R82). The first test only lets a length that every `BUF_CAP` admits
be decided without it (D7). -/
def exceedsCap (n : Nat) : Bool := decide (Config.minBufCap < n) && exceedsCapOf Config.bufCap n

/-- `calibrated = raw - offset` as an exact integer (R125). -/
def calibrated (r : Record) : Int := r.raw.toInt - r.offset.toInt

/-- The tuple of R124. -/
def recordView (r : Record) : RecordView where
  identifier := r.identifier
  isValid := r.isValid
  raw := r.raw
  offset := r.offset
  commanded := r.commanded
  calibrated := calibrated r

end Sys2Proof.Machine
end

