-- ==== Sys2Proof/Machine/Ops.lean ====
section
/-! DEFINITION. Machine/Ops.lean: the named operations over the buffer, the store, the poll state and the outputs,
written from the pseudocode of the spec. There is no trap entry and no return from one (R180, R181): what takes its
place is `raise`. -/

namespace Sys2Proof.Machine

/-! ## Outputs -/

/-- `emit E(args)` (R8). -/
def emit (e : Event) (s : State) : State := { s with events := s.events ++ [e] }

/-- The transaction ends and returns this value (R66, D1). -/
def returns (r : Result) (s : State) : State := { s with result := r }

/-- `raise Fault(kind)` (R8, R176): the fault is recorded, everything else is as at the start of the transaction, and no
event is emitted. -/
def raise (k : FaultName) (s : State) : State := { s with fault := s.fault.insert k }

/-! ## The pending buffer -/

/-- The append of `FEED` (R80). -/
def appendBuf (ds : List HexDigit) (s : State) : State := { s with buf := s.buf ++ ds }

/-- The removal of a prefix of `n` characters (R84). -/
def consume (n : Nat) (s : State) : State := { s with buf := s.buf.drop n }

/-- The emptying of the buffer (R83, R88). -/
def clearBuf (s : State) : State := { s with buf := [] }

/-! ## The store -/

/-- `STORE_INIT()` (R120). -/
def initializeStore (s : State) : State := { s with store := initStore }

/-- `STORE_UPDATE(id, v, raw, off, cmd)` (R122): all four fields at once, no other record, never the identifier. -/
def updateRecord (id : Id) (v : Bool) (raw off cmd : BitVec 16) (s : State) : State :=
  let r : Record := { s.store[id] with isValid := v, raw := raw, offset := off, commanded := cmd }
  { s with store := s.store.set id r }

/-- One pass of the loop of `DECODE` (R100, R105): a truncated slot (class (e)) and an unknown identifier (class (d))
are skipped; after the two checks neither occurs (R108). -/
def unpackSlot (frame : List Byte) (s : State) (k : Nat) : State :=
  let o := slotAt k
  if frame.length < o + Config.recBytes then s
  else if h : (byteAt frame (o + Config.idAt)).toNat < 32 then
    updateRecord ⟨(byteAt frame (o + Config.idAt)).toNat, h⟩
      (validity (byteAt frame (o + Config.flagsAt)))
      (s16At frame (o + Config.rawAt))
      (s16At frame (o + Config.offsetAt))
      (s16At frame (o + Config.commandedAt)) s
  else s

/-- `DECODE(frame)` (R100): coarse check, fine check, 16 slots in ascending order, one page update. -/
def dispatchFrame (frame : List Byte) (s : State) : State :=
  if !coarse frame then s
  else if !fine frame then s
  else
    emit (.pageUpdate (pageOfBase (byteAt frame Config.hdrBytes)))
      ((List.range Config.recsPerFrame).foldl (unpackSlot frame) s)

/-- `EXTRACT()` (R83, R84): one attempt, at most one frame (R85). -/
def extractFrame (s : State) : State :=
  match s.buf with
  | c1 :: c0 :: _ =>
    let len := (hexByte c1 c0).toNat
    if len = 0 then clearBuf s
    else if s.buf.length < Config.charsPerByte * len then s
    else
      let frame := hexDec (s.buf.take (Config.charsPerByte * len))
      dispatchFrame frame (emit (.rxCheck (byteCheck frame)) (consume (Config.charsPerByte * len) s))
  | _ => s

/-- `FEED(chunk)` (R80): alphabet check, capacity check, append, one extraction attempt, in this order (R179). -/
def feedChunk (chunk : List Ch) (s : State) : State :=
  match toHexDigits chunk with
  | none => raise .hexFault s
  | some ds =>
    if exceedsCap (s.buf.length + chunk.length) then raise .bufOverflow s
    else extractFrame (appendBuf ds s)

/-- What the extractor does with an item of `bytes` bytes that it takes from the head of the buffer (R84): the prefix is
consumed and the byte check reported. -/
def takeFrame (frame : List Byte) (s : State) : State :=
  emit (.rxCheck (byteCheck frame)) (consume (Config.charsPerByte * frame.length) s)

/-- The 16 updates of a telemetry response, from its operands (R107). -/
def storeSlots (p : Page) (t : Telem) (s : State) : State :=
  (List.finRange 16).foldl (fun s (k : Fin 16) =>
    updateRecord (pageId p k) (validity t.slots[k].flags) t.slots[k].raw t.slots[k].offset t.slots[k].commanded s) s

/-- An accepted telemetry response, from its operands (R107, R109). -/
def acceptTelem (p : Page) (t : Telem) (s : State) : State :=
  emit (.pageUpdate p) (storeSlots p t (takeFrame (encodeTelem p t) s))

/-! ## The poll state -/

/-- `ISSUE_REQUEST()` (R134). -/
def issue (s : State) : State :=
  { emit (.tx (readRequest s.nextPage)) s with nextPage := flipPage s.nextPage }

/-- `REQ_SINGLE()` (R133). -/
def requestOnce (s : State) : State := if s.cont then s else issue s

/-- The loop of `PACER_TICK` (R135): each pass subtracts one interval, so `elapsed` bounds the number of passes. -/
def catchUp : (fuel : Nat) → State → State
  | 0, s => s
  | fuel + 1, s =>
    if Config.intervalUnits ≤ s.elapsed then
      catchUp fuel { issue s with elapsed := s.elapsed - Config.intervalUnits }
    else s

/-- `PACER_TICK(dt)` (R135, R136). -/
def tick (dt : Nat) (s : State) : State :=
  if s.cont then catchUp (s.elapsed + dt) { s with elapsed := s.elapsed + dt } else s

/-- `SET_CONT(1)` (R131): the timer is zeroed every time, the event is emitted on a change only. -/
def enterContinuous (s : State) : State :=
  let t := { s with cont := true, elapsed := 0 }
  if s.cont then t else emit (.modeChange true) t

/-- `SET_CONT(0)` (R132). -/
def leaveContinuous (s : State) : State :=
  let t := { s with cont := false }
  if s.cont then emit (.modeChange false) t else t

/-! ## Reset -/

/-- `HW_RESET()` (R190): every component at the value of Table Z1, no event. The host's queues and the events already
delivered are no state of the block (log 13). -/
def hardReset (s : State) : State :=
  initializeStore
    { s with buf := [], cont := false, nextPage := .page0, elapsed := 0, fault := FaultSet.empty }

end Sys2Proof.Machine
end

