-- ==== Sys2Proof/Machine/Assembler.lean ====
section
/-! DEFINITION. Machine/Assembler.lean: frame synchronizer and length-prefix extractor (`spec/40_assembler.md`). -/

namespace Sys2Proof.Machine

/-- FEED (R80, R81, R82): a refused chunk records its fault and the machine goes on (R176). -/
def execFeed (chunk : List Ch) (s : State) : Host.Outcome State Fault Refusal :=
  .next (returns .nothing (feedChunk chunk s))

/-- BUF_RESET (R88). -/
def execBufReset (s : State) : Host.Outcome State Fault Refusal :=
  .next (returns .nothing (clearBuf s))

/-- EXTRACT (R83, R84). -/
def execExtract (s : State) : Host.Outcome State Fault Refusal :=
  .next (returns .nothing (extractFrame s))

end Sys2Proof.Machine
end

