-- ==== Sys2Proof/Machine/Decoder.lean ====
section
/-! DEFINITION. Machine/Decoder.lean: the frame checks, demultiplexer and unpacker (`spec/41_decoder.md`). -/

namespace Sys2Proof.Machine

/-- DECODE (R100). -/
def execDecode (frame : List Byte) (s : State) : Host.Outcome State Fault Refusal :=
  .next (returns .nothing (dispatchFrame frame s))

end Sys2Proof.Machine
end

