-- ==== Sys2Proof/WellFormed.lean ====
section
/-! DEFINITION. WellFormed.lean: the operand domains the spec states for each row. The smoke test, one ill-formed term
for each check, is in `Sys2Proof/Tests/Slice0.lean`. -/

namespace Sys2Proof

/-- The operands of a telemetry response fit a one-byte Length (R54, R56): at most 27 bytes after slot 15. -/
def Telem.wf (t : Telem) : Bool := decide (Config.minTelemLen + t.tail.length ≤ Config.maxFrameLen)

/-- An `OTHER_FRAME`: a frame, and no accepted telemetry response (R59). -/
def otherFrameWf (f : List Byte) : Bool := isFrame f && !isTelemetry f

/-- A byte sequence of length at least 1 (R154, R158). -/
def nonEmpty (f : List Byte) : Bool := decide (1 ≤ f.length)

/-- Every operand lies in the domain its rule states. -/
def WellFormed : Instr → Bool
  | .desync => true
  | .telemPage0 t => t.wf
  | .telemPage1 t => t.wf
  | .otherFrame f => otherFrameWf f
  | .readReq _ => true
  | .allStop => true
  | .feed _ => true
  | .bufReset => true
  | .storeGet _ => true
  | .setCont1 => true
  | .setCont0 => true
  | .reqSingle => true
  | .pacerTick _ => true
  | .buildRead _ => true
  | .buildStop => true
  | .hwReset => true
  | .extract => true
  | .decodeFrame f => isFrame f
  | .storeInit => true
  | .storeUpdate _ _ _ _ _ => true
  | .issueRequest => true
  | .finalize pre => nonEmpty pre
  | .rxCheck f => nonEmpty f
  | .hostTick _ => true
  | .feedBytes _ => true
  | .feedChars _ => true
  | .drain => true

end Sys2Proof
end

