-- ==== Sys2Proof/Machine/Outbound.lean ====
section
/-! DEFINITION. Machine/Outbound.lean: the outbound frames and their builders, the finalizing step and the byte check
(`spec/44_encoder_checksum.md`). None of them changes the block's state (R150, R152, R154, R158). -/

namespace Sys2Proof.Machine

/-- READ_REQ (R60, R150): the pre-transform read request is finalized (log 6). -/
def execReadReq (page : Page) (s : State) : Host.Outcome State Fault Refusal :=
  .next (returns (.bytes (finalizeFrame (readReqPre page))) s)

/-- ALL_STOP (R61, R152): the pre-transform all-stop is finalized (log 6). -/
def execAllStop (s : State) : Host.Outcome State Fault Refusal :=
  .next (returns (.bytes (finalizeFrame Config.allStopPre)) s)

/-- BUILD_READ (R150): a pure function of `page`; `nextPage` is neither read nor flipped. -/
def execBuildRead (page : Page) (s : State) : Host.Outcome State Fault Refusal :=
  .next (returns (.bytes (readRequest page)) s)

/-- BUILD_STOP (R152). -/
def execBuildStop (s : State) : Host.Outcome State Fault Refusal :=
  .next (returns (.bytes stopCommand) s)

/-- FINALIZE (R154), for a sequence of length at least 1. -/
def execFinalize (pre : List Byte) (s : State) : Host.Outcome State Fault Refusal :=
  if nonEmpty pre then .next (returns (.bytes (finalizeFrame pre)) s) else .fault .operandDomain

/-- RX_CHECK (R158), for a sequence of length at least 1; the event is emitted by `EXTRACT`, not here. -/
def execRxCheck (frame : List Byte) (s : State) : Host.Outcome State Fault Refusal :=
  if nonEmpty frame then .next (returns (.truth (byteCheck frame)) s) else .fault .operandDomain

end Sys2Proof.Machine
end

