-- ==== Sys2Proof/Machine/Pacer.lean ====
section
/-! DEFINITION. Machine/Pacer.lean: the request pacer (`spec/43_pacer.md`). -/

namespace Sys2Proof.Machine

/-- SET_CONT with operand 1 (R131). -/
def execSetCont1 (s : State) : Host.Outcome State Fault Refusal :=
  .next (returns .nothing (enterContinuous s))

/-- SET_CONT with operand 0 (R132). -/
def execSetCont0 (s : State) : Host.Outcome State Fault Refusal :=
  .next (returns .nothing (leaveContinuous s))

/-- REQ_SINGLE (R133). -/
def execReqSingle (s : State) : Host.Outcome State Fault Refusal :=
  .next (returns .nothing (requestOnce s))

/-- PACER_TICK (R135). -/
def execPacerTick (dt : Nat) (s : State) : Host.Outcome State Fault Refusal :=
  .next (returns .nothing (tick dt s))

/-- ISSUE_REQUEST (R134). -/
def execIssueRequest (s : State) : Host.Outcome State Fault Refusal :=
  .next (returns .nothing (issue s))

end Sys2Proof.Machine
end

