-- ==== Sys2Proof/Machine/Pseudo.lean ====
section
/-! DEFINITION. Machine/Pseudo.lean: the pseudo-operations (R68), each the run of the transactions it stands for. -/

namespace Sys2Proof.Machine

/-- One `FEED` transaction, with what it returns. -/
def feedTransaction (chunk : List Ch) (s : State) : State := returns .nothing (feedChunk chunk s)

/-- One `PACER_TICK` transaction, with what it returns. -/
def tickTransaction (dt : Nat) (s : State) : State := returns .nothing (tick dt s)

/-- HOST_TICK (R140): at most one queued line is fed, the oldest, and then the pacer ticks. -/
def execHostTick (dt : Nat) (s : State) : Host.Outcome State Fault Refusal :=
  match s.lineQueue with
  | [] => .next (tickTransaction dt s)
  | l :: q => .next (tickTransaction dt (feedTransaction l { s with lineQueue := q }))

/-- FEED_BYTES (R68): `FEED HexEnc(f)`. -/
def execFeedBytes (f : List Byte) (s : State) : Host.Outcome State Fault Refusal :=
  .next (feedTransaction (hexText f) s)

/-- FEED_CHARS (R68): one `FEED` per character, in order. -/
def execFeedChars (t : List Ch) (s : State) : Host.Outcome State Fault Refusal :=
  .next (t.foldl (fun s c => feedTransaction [c] s) s)

/-- DRAIN (R68): `FEED ""`. -/
def execDrain (s : State) : Host.Outcome State Fault Refusal :=
  .next (feedTransaction [] s)

end Sys2Proof.Machine
end

