-- ==== Sys2Proof/Machine/Reset.lean ====
section
/-! DEFINITION. Machine/Reset.lean: the reset input (`spec/70_reset_and_hazards.md`). -/

namespace Sys2Proof.Machine

/-- HW_RESET (R190). -/
def execHwReset (s : State) : Host.Outcome State Fault Refusal :=
  .next (returns .nothing (hardReset s))

end Sys2Proof.Machine
end

