-- ==== Sys2Proof/Machine/Store.lean ====
section
/-! DEFINITION. Machine/Store.lean: the servo state store (`spec/42_store.md`). -/

namespace Sys2Proof.Machine

/-- STORE_GET (R124): read-only, never fails. -/
def execStoreGet (id : Id) (s : State) : Host.Outcome State Fault Refusal :=
  .next (returns (.record (recordView s.store[id])) s)

/-- STORE_INIT (R120). -/
def execStoreInit (s : State) : Host.Outcome State Fault Refusal :=
  .next (returns .nothing (initializeStore s))

/-- STORE_UPDATE (R122). -/
def execStoreUpdate (id : Id) (v : Bool) (raw off cmd : BitVec 16) (s : State) :
    Host.Outcome State Fault Refusal :=
  .next (returns .nothing (updateRecord id v raw off cmd s))

end Sys2Proof.Machine
end

