-- ==== Sys2Proof/Machine/Wire.lean ====
section
/-! DEFINITION. Machine/Wire.lean: the meanings of the inbound wire kinds: what the extractor does with each once it
stands at the head of the pending buffer (R59, R83, R84; log 5). -/

namespace Sys2Proof.Machine

/-- DESYNC (R63, R83): the whole buffer is emptied, no event. -/
def execDesync (s : State) : Host.Outcome State Fault Refusal :=
  .next (returns .nothing (clearBuf s))

/-- TELEM_PAGE0 (R100, R107, R109): consumed, checked, unpacked to records 0x00 to 0x0F, `page_update(0)`. -/
def execTelemPage0 (t : Telem) (s : State) : Host.Outcome State Fault Refusal :=
  if t.wf then .next (returns .nothing (acceptTelem .page0 t s)) else .fault .operandDomain

/-- TELEM_PAGE1: as TELEM_PAGE0 with records 0x10 to 0x1F and `page_update(1)`. -/
def execTelemPage1 (t : Telem) (s : State) : Host.Outcome State Fault Refusal :=
  if t.wf then .next (returns .nothing (acceptTelem .page1 t s)) else .fault .operandDomain

/-- OTHER_FRAME (R64): consumed and discarded; its only event is the `rx_check` every frame gets. -/
def execOtherFrame (frame : List Byte) (s : State) : Host.Outcome State Fault Refusal :=
  if otherFrameWf frame then .next (returns .nothing (takeFrame frame s)) else .fault .operandDomain

end Sys2Proof.Machine
end

