-- ==== Sys2Proof/Machine/Dispatch.lean ====
section
/-! DEFINITION. Machine/Dispatch.lean: one arm per row of the opcode table. -/

namespace Sys2Proof.Machine

def exec (i : Instr) (s : State) : Host.Outcome State Fault Refusal :=
  match i with
  | .desync => Sys2Proof.Machine.execDesync s
  | .telemPage0 t => Sys2Proof.Machine.execTelemPage0 t s
  | .telemPage1 t => Sys2Proof.Machine.execTelemPage1 t s
  | .otherFrame frame => Sys2Proof.Machine.execOtherFrame frame s
  | .readReq page => Sys2Proof.Machine.execReadReq page s
  | .allStop => Sys2Proof.Machine.execAllStop s
  | .feed chunk => Sys2Proof.Machine.execFeed chunk s
  | .bufReset => Sys2Proof.Machine.execBufReset s
  | .storeGet id => Sys2Proof.Machine.execStoreGet id s
  | .setCont1 => Sys2Proof.Machine.execSetCont1 s
  | .setCont0 => Sys2Proof.Machine.execSetCont0 s
  | .reqSingle => Sys2Proof.Machine.execReqSingle s
  | .pacerTick dt => Sys2Proof.Machine.execPacerTick dt s
  | .buildRead page => Sys2Proof.Machine.execBuildRead page s
  | .buildStop => Sys2Proof.Machine.execBuildStop s
  | .hwReset => Sys2Proof.Machine.execHwReset s
  | .extract => Sys2Proof.Machine.execExtract s
  | .decodeFrame frame => Sys2Proof.Machine.execDecode frame s
  | .storeInit => Sys2Proof.Machine.execStoreInit s
  | .storeUpdate id v raw off cmd => Sys2Proof.Machine.execStoreUpdate id v raw off cmd s
  | .issueRequest => Sys2Proof.Machine.execIssueRequest s
  | .finalize pre => Sys2Proof.Machine.execFinalize pre s
  | .rxCheck frame => Sys2Proof.Machine.execRxCheck frame s
  | .hostTick dt => Sys2Proof.Machine.execHostTick dt s
  | .feedBytes f => Sys2Proof.Machine.execFeedBytes f s
  | .feedChars t => Sys2Proof.Machine.execFeedChars t s
  | .drain => Sys2Proof.Machine.execDrain s

end Sys2Proof.Machine
end

