-- ==== Sys2Proof/Machine/Fetch.lean ====
section
/-! DEFINITION. Machine/Fetch.lean: how the machine comes by its next transaction (R20, R40; log 1) and where a code is
placed so that the next step runs it (log 4). -/

namespace Sys2Proof.Machine

/-- What the block finds when it looks for its next transaction. -/
inductive Fetched where
  /-- The host has issued nothing: the block holds its state (R187). -/
  | idle
  /-- A transaction that decodes, and the state without it in the host's sequence. -/
  | instr (i : Instr) (s : State)
  /-- An input that cannot be presented (R67, U16, U17). -/
  | bad (why : Reject)

/-- The oldest transaction of the host's sequence, decoded (R40, R140). -/
def fetch (s : State) : Fetched :=
  match s.pending with
  | [] => .idle
  | x :: rest =>
    match decodeHost x with
    | .ok i => .instr i { s with pending := rest }
    | .error why => .bad why

/-- Places a code where the next step reads it: a host input at the front of the host's sequence; an inbound item in the
buffer, with an empty `FEED` (one extraction attempt) issued; an outbound frame by the builder that makes it. -/
def placeCode (c : Code) (s : State) : State :=
  match c with
  | .host x => { s with pending := x :: s.pending }
  | .wire bytes => { s with buf := hexEnc bytes, pending := feedInput [] :: s.pending }
  | .outbound bytes =>
    match decodeOutbound bytes with
    | .ok (.readReq page) => { s with pending := .command 7 (pageOperand page) :: s.pending }
    | _ => { s with pending := .command 8 [] :: s.pending }

end Sys2Proof.Machine
end

