-- ==== Sys2Proof/Machine/Step.lean ====
section
/-! DEFINITION. Machine/Step.lean: one step is one transaction, from its start to its `return` (R40). -/

namespace Sys2Proof.Machine

/-- One transaction of the host's sequence, or none while the host issues none. -/
def step (s : State) : Host.Outcome State Fault Refusal :=
  match fetch s with
  | .idle => .next s
  | .instr i t => exec i t
  | .bad why => .refused (.cannotBePresented why)

/-- The instruction of a table word, placed where the next step runs it (fixed name of the host; log 4). -/
def State.withFetchWord (s : State) (nbits w : Nat) : State := placeCode (tableCode nbits w) s

end Sys2Proof.Machine
end

