-- ==== Sys2Proof/Safety.lean ====
section
/-! DEFINITION. Safety.lean: the invariants the spec states of the block's state, what a safe run is, and the terms in
which the statements speak of accepted frames and paced requests. -/

namespace Sys2Proof.Machine

/-! ## Invariants -/

/-- `len(buf) <= BUF_CAP` when `BUF_CAP` is finite (R11); that every character is a hex digit is the buffer's type. -/
def State.BufFits (s : State) : Prop := ∀ cap, Config.bufCap = some cap → s.buf.length ≤ cap

/-- Record `i` has the constant field `identifier = i` (R13). -/
def State.IdsFixed (s : State) : Prop := ∀ i : Id, s.store[i].identifier = i

/-- The timer is below the interval between transactions (R137, R183). -/
def State.TimerBelow (s : State) : Prop := s.elapsed < Config.intervalUnits

/-- The block's invariant. -/
def State.Inv (s : State) : Prop := s.BufFits ∧ s.IdsFixed ∧ s.TimerBelow

/-- No fault has been recorded: every claim about a run takes this of its end as a premise (R21, R176). -/
def State.NoFault (s : State) : Prop := s.fault = FaultSet.empty

/-- The fault set of `s` is contained in that of `t` (R176: the bits are sticky). -/
def FaultsKept (s t : State) : Prop := ∀ k : FaultName, s.fault.has k = true → t.fault.has k = true

/-- `n` steps, stopping at the first fault or refusal: the host's `Host.Core.run` of this machine
(`run_eq_core`, in `Laws/Outer.lean`). -/
def run : Nat → State → Host.Outcome State Fault Refusal
  | 0, s => .next s
  | n + 1, s =>
    match step s with
    | .next t => run n t
    | .fault a => .fault a
    | .refused a => .refused a

/-- A run of `n` steps that ends with no fault recorded. -/
def SafeRun (n : Nat) (s t : State) : Prop := run n s = .next t ∧ t.NoFault

/-! ## Accepted frames -/

/-- The two checks of R101 and R103, written out: a telemetry response of page `p`. -/
def AcceptedFrame (f : List Byte) (p : Page) : Prop :=
  228 ≤ f.length ∧ f[1]? = some 0xE4 ∧ f[2]? = some 0x01 ∧ f[3]? = some 0x00 ∧
    ∀ k : Fin 16, f[4 + 14 * k.val]? = some (pageBase p + BitVec.ofNat 8 k.val)

/-- Record `pageId p k` after the update from slot `k` of frame `f` (R105, R107): its identifier stays. -/
def slotRecord (f : List Byte) (k : Fin 16) (old : Record) : Record where
  identifier := old.identifier
  isValid := (byteAt f (4 + 14 * k.val + 1)).getLsbD 7
  raw := s16 (byteAt f (4 + 14 * k.val + 2)) (byteAt f (4 + 14 * k.val + 3))
  offset := s16 (byteAt f (4 + 14 * k.val + 4)) (byteAt f (4 + 14 * k.val + 5))
  commanded := s16 (byteAt f (4 + 14 * k.val + 6)) (byteAt f (4 + 14 * k.val + 7))

/-- The 16 records of page `p` are those of frame `f`, and the other 16 are untouched (R107, R110). -/
def PageStored (f : List Byte) (p : Page) (old new : Vector Record 32) : Prop :=
  (∀ k : Fin 16, new[pageId p k] = slotRecord f k old[pageId p k]) ∧
    ∀ k : Fin 16, new[pageId (flipPage p) k] = old[pageId (flipPage p) k]

/-! ## Events and requests -/

/-- The requests among a list of events, in order. -/
def requestsIn (es : List Event) : List (List Byte) :=
  es.filterMap fun e => match e with
    | .tx bytes => some bytes
    | _ => none

/-- `n` successive requests that begin with page `p` and alternate (R18, R134). -/
def requestsFrom : Page → Nat → List (List Byte)
  | _, 0 => []
  | p, n + 1 => finalizeFrame (readReqPre p) :: requestsFrom (flipPage p) n

/-- Two outcomes that differ at most in the fault set of the next state. -/
def AgreeButFault : Host.Outcome State Fault Refusal → Host.Outcome State Fault Refusal → Prop
  | .next t, .next u => { u with fault := t.fault } = t
  | .fault a, .fault b => a = b
  | .refused a, .refused b => a = b
  | _, _ => False

end Sys2Proof.Machine
end

