-- ==== Sys2Proof/Certificates/Slice0/Obligations.lean ====
section
/-! DEFINITION. Certificates/Slice0/Obligations.lean: the statements for the provers. Each docstring names the rule a
statement formalises, or the log entry its model's choice stands in. Wherever a next state is written out, `events` and
`result` are how the model holds the event list and the returned value of the spec's transactions (log 11). -/

open Sys2Proof Sys2Proof.Machine

/-! ## Codes -/

/-- A few words written out from Tables F1 to F3 and R60; the operand layout is the model's (log 2). -/
def Obligations.WrittenWordsDecode : Prop :=
  decode (.wire [0x00]) = .ok .desync ∧
  decode (.wire [0x05, 0x01, 0x00, 0x00, 0x04]) = .ok (.otherFrame [0x05, 0x01, 0x00, 0x00, 0x04]) ∧
  decode (.outbound [0x07, 0x01, 0x00, 0x05, 0x10, 0xE0, 0xFF]) = .ok (.readReq .page1) ∧
  decode (.host (.command 0x1 [0x30, 0x37])) = .ok (.feed [0x30, 0x37]) ∧
  decode (.host (.command 0x2 [])) = .ok .bufReset ∧
  decode (.host (.command 0x3 [0x1F])) = .ok (.storeGet 31) ∧
  decode (.host (.command 0x4 [0x01])) = .ok .setCont1 ∧
  decode (.host (.command 0x6 [0xE8, 0x03])) = .ok (.pacerTick 1000) ∧
  decode (.host .reset) = .ok .hwReset

/-- Decoding an encoded instruction gives it back, every operand at every value its domain admits. The operand bytes
of commands are the model's layout (log 2), the slot offsets the spec's own decision D36 (log 20), and only rows that
have a code are spoken of (log 3). -/
def Obligations.DecodeAfterEncode : Prop :=
  ∀ (i : Instr) (c : Code), WellFormed i = true → encode i = some c → decode c = .ok i

/-- R62: what follows an inbound item in the stream plays no part in decoding it. The slot offsets are the spec's own
decision D36 (log 20). -/
def Obligations.WireDecodeIgnoresWhatFollows : Prop :=
  ∀ (i : Instr) (item rest : List Byte), WellFormed i = true → encode i = some (.wire item) →
    decodeWire (item ++ rest) = .ok i

/-- An inbound item is spelled again by what the decoder reads from it: no byte of a frame is dropped. The slot
offsets are the spec's own decision D36 (log 20). -/
def Obligations.EncodeAfterWireDecode : Prop :=
  ∀ (bytes : List Byte) (i : Instr), decodeWire bytes = .ok i →
    WellFormed i = true ∧ ∃ item rest, bytes = item ++ rest ∧ encode i = some (.wire item)

/-- R67, R124, U16, U17: the unassigned codes 0x0 and 0x9 to 0xF, and an identifier above 0x1F, cannot be presented;
the model refuses them by name (its own choice, log 17). That the transactions stand in `pending` is the model's own
(log 1), and so is an identifier of one operand byte (log 2). -/
def Obligations.UnpresentableInputsRefused : Prop :=
  ∀ (s : State) (rest : List HostInput),
    (∀ (code : BitVec 4) (operand : List Byte), code.toNat = 0 ∨ 9 ≤ code.toNat →
      s.pending = .command code operand :: rest → step s = .refused (.cannotBePresented (.unassignedCode code))) ∧
    ∀ b : Byte, 0x1F < b.toNat → s.pending = .command 3 [b] :: rest →
      step s = .refused (.cannotBePresented (.idOutOfRange b))

/-- R7: `HexDec(HexEnc(f)) = f` for every `f`. The nibble order is the spec's own decision D3 and upper-case output
its decision D22 (log 18). -/
def Obligations.HexDecAfterHexEnc : Prop := ∀ f : List Byte, hexDec (hexEnc f) = f

/-- R7: `s16(lo, hi)` is `v = lo + 256 * hi` when `v <= 32767` and `v - 65536` otherwise. The 16-bit word that holds
the value is log 7. -/
def Obligations.SixteenBitFieldValue : Prop :=
  ∀ lo hi : Byte, (s16 lo hi).toInt =
    if lo.toNat + 256 * hi.toNat ≤ 32767 then ((lo.toNat + 256 * hi.toNat : Nat) : Int)
    else ((lo.toNat + 256 * hi.toNat : Nat) : Int) - 65536

/-! ## Steps -/

/-- R40: a step is the oldest transaction the host has issued, run from start to return; nothing else moves. That the
transactions stand in `pending` is the model's own (log 1). -/
def Obligations.StepRunsDecodedTransaction : Prop :=
  ∀ (s : State) (x : HostInput) (rest : List HostInput) (i : Instr),
    s.pending = x :: rest → decodeHost x = .ok i → step s = exec i { s with pending := rest }

/-- R187: between transactions the block simply holds its state. The idle step is the model's own (log 1). -/
def Obligations.IdleBlockHoldsState : Prop := ∀ s : State, s.pending = [] → step s = .next s

/-- Extraction and the wire kinds agree: when the head of the buffer is an item, `EXTRACT` does what that item's row
says, and when it is incomplete, `EXTRACT` waits. The meanings of the wire rows are log 5; the `rx_check` event and
the slot offsets are the spec's own decisions D20 and D36 (log 20). That a buffer of one character waits is the spec's
own decision D6. -/
def Obligations.ExtractRunsItemAtHead : Prop :=
  ∀ s : State,
    (∀ i, bufHead s.buf = some i → exec .extract s = exec i s) ∧
    (bufHead s.buf = none → exec .extract s = .next { s with result := .nothing })

/-- An inbound item at the head of the buffer runs in the step of the `FEED` that attempts its extraction. The
meanings of the wire rows are log 5. That the transactions stand in `pending` is the model's own (log 1), as is the
layout of an operand (log 2); the empty chunk is the spec's own decision D8. -/
def Obligations.StepRunsItemAtHead : Prop :=
  ∀ (s : State) (rest : List HostInput) (i : Instr),
    s.BufFits → s.pending = .command 1 [] :: rest → bufHead s.buf = some i →
    step s = exec i { s with pending := rest }

/-! ## Inbound wire kinds -/

/-- R63: the effect of a leading Length byte of 0x00 is to empty the whole buffer; no fault, no event. That the wire
row DESYNC means this in every state is log 5. -/
def Obligations.DesyncEmptiesBuffer : Prop :=
  ∀ s : State, exec .desync s = .next { s with buf := [], result := .nothing }

/-- R107, R109: a telemetry response, from its operand fields, updates the 16 records of its page, leaves the other
16, and announces the page once, after its `rx_check`. Its frame of 228 + len(tail) bytes is consumed from the buffer
(log 5). The slot offsets are the spec's own decision D36 (log 20). The `rx_check` event is the spec's own decision
D20. -/
def Obligations.TelemetryUpdatesItsPage : Prop :=
  ∀ (p : Page) (t : Telem) (s : State), t.tail.length ≤ 27 →
    ∃ u : State,
      exec (match p with | .page0 => .telemPage0 t | .page1 => .telemPage1 t) s = .next u ∧
      (∀ k : Fin 16, u.store[pageId p k] =
        { identifier := s.store[pageId p k].identifier, isValid := t.slots[k].flags.getLsbD 7, raw := t.slots[k].raw,
          offset := t.slots[k].offset, commanded := t.slots[k].commanded }) ∧
      (∀ k : Fin 16, u.store[pageId (flipPage p) k] = s.store[pageId (flipPage p) k]) ∧
      u = { s with
        buf := s.buf.drop (2 * (228 + t.tail.length)), store := u.store, result := .nothing,
        events := s.events ++ [.rxCheck (byteCheck (encodeTelem p t)), .pageUpdate p] }

/-- R64: any other frame is consumed, the store is unchanged, no `page_update` is emitted; its one event is the
`rx_check` of every extracted frame (R84, the spec's own decision D20). That its `2 * len(f)` characters are dropped in
every state is the model's reading of a wire kind (log 5). -/
def Obligations.OtherFrameDiscarded : Prop :=
  ∀ (f : List Byte) (s : State), isFrame f = true → isTelemetry f = false →
    exec (.otherFrame f) s = .next { s with
      buf := s.buf.drop (2 * f.length), events := s.events ++ [.rxCheck (byteCheck f)], result := .nothing }

/-! ## Frame synchronizer -/

/-- R80, R81, R82: the alphabet check comes first, so a chunk that is not hex records `HexFault` alone, however long;
a hex chunk that would make the buffer exceed a finite `BUF_CAP` is refused whole and `BufOverflow` recorded;
otherwise it is appended whole, the empty one included, and its one extraction attempt is made. With `BUF_CAP`
unbounded the capacity check never fires. The refusals and the empty chunk are the spec's own decisions D4, D7 and D8.
The form of `BUF_CAP` is log 10, and a recorded fault that does not stop the machine is log 14. -/
def Obligations.FeedChecksThenAppends : Prop :=
  (∀ (s : State) (chunk : List Ch), (∃ c ∈ chunk, isHexDigit c = false) →
    exec (.feed chunk) s = .next { s with fault := { s.fault with hexFault := true }, result := .nothing }) ∧
  ∀ (s : State) (ds : List HexDigit),
    ∃ t, exec .extract { s with buf := s.buf ++ ds } = .next t ∧
      exec (.feed (ds.map HexDigit.code)) s = .next (
        match Config.bufCap with
        | none => t
        | some cap =>
          if cap < s.buf.length + ds.length then
            { s with fault := { s.fault with bufOverflow := true }, result := .nothing }
          else t)

/-- R80, R43: a hex chunk that fits is appended whole and one extraction attempt is made, in the same transaction.
`BUF_CAP` is the spec's own decision D7 (log 10). -/
def Obligations.FeedAppendsThenExtracts : Prop :=
  ∀ (s : State) (ds : List HexDigit),
    (∀ cap, Config.bufCap = some cap → s.buf.length + ds.length ≤ cap) →
    ∃ t, exec .extract { s with buf := s.buf ++ ds } = .next t ∧ exec (.feed (ds.map HexDigit.code)) s = .next t

/-- R83: a buffer of fewer than 2 characters waits; a leading byte of 0 empties the whole buffer, whatever follows it,
complete frames included; no event either way. That fewer than 2 characters wait is the spec's own decision D6. -/
def Obligations.ExtractWaitsOrDesyncs : Prop :=
  (∀ s : State, s.buf.length < 2 → exec .extract s = .next { s with result := .nothing }) ∧
  ∀ (s : State) (c1 c0 : HexDigit) (rest : List HexDigit), s.buf = c1 :: c0 :: rest → hexByte c1 c0 = 0 →
    exec .extract s = .next { s with buf := [], result := .nothing }

/-- R84: with a leading byte `L` of 1 to 255, fewer than `2 * L` characters wait; otherwise exactly that span is the
frame, of the length its first byte declares; it is cut off the front, its byte check reported, and it is dispatched.
Any remainder stays. The `rx_check` event is the spec's own decision D20. -/
def Obligations.ExtractDispatchesOneFrame : Prop :=
  ∀ (s : State) (c1 c0 : HexDigit) (rest : List HexDigit),
    s.buf = c1 :: c0 :: rest → hexByte c1 c0 ≠ 0 →
    (s.buf.length < 2 * (hexByte c1 c0).toNat → exec .extract s = .next { s with result := .nothing }) ∧
    (2 * (hexByte c1 c0).toNat ≤ s.buf.length →
      ∃ f, f = hexDec (s.buf.take (2 * (hexByte c1 c0).toNat)) ∧ isFrame f = true ∧
        ∃ t, exec (.decodeFrame f) { s with
            buf := s.buf.drop (2 * (hexByte c1 c0).toNat), events := s.events ++ [.rxCheck (byteCheck f)] } = .next t ∧
          exec .extract s = .next t)

/-- R86: while fewer than `2 * L` characters are buffered, every `FEED` of hex digits appends and returns with no
event, whatever `BUF_CAP` is. That `BUF_CAP` is at least 510 is the spec's own decision D7 (log 10). -/
def Obligations.FeedWaitsWhileIncomplete : Prop :=
  ∀ (s : State) (ds : List HexDigit) (c1 c0 : HexDigit) (rest : List HexDigit),
    s.buf ++ ds = c1 :: c0 :: rest → (s.buf ++ ds).length < 2 * (hexByte c1 c0).toNat →
    exec (.feed (ds.map HexDigit.code)) s = .next { s with buf := s.buf ++ ds, result := .nothing }

/-- R85: at most one complete frame is emitted per feed cycle. The `rx_check` event is the spec's own decision D20,
and the list of events is log 11. -/
def Obligations.OneFramePerFeed : Prop :=
  ∀ (s t : State) (chunk : List Ch), exec (.feed chunk) s = .next t →
    ∃ new, t.events = s.events ++ new ∧
      (new = [] ∨ (∃ ok, new = [.rxCheck ok]) ∨ ∃ ok p, new = [.rxCheck ok, .pageUpdate p])

/-- R87: a complete frame fed in any split is the frame fed whole. That the transactions stand in `pending` is the
model's own (log 1), as is a chunk's layout as operand bytes (log 2); that an empty chunk is legal is the spec's own
decision D8. That a buffer of one character waits is the spec's own decision D6. -/
def Obligations.FragmentationInvariance : Prop :=
  ∀ (s : State) (chunks : List (List Ch)) (ds : List HexDigit) (later : List HostInput),
    s.buf = [] → chunks.flatten = ds.map HexDigit.code → isFrame (hexDec ds) = true →
    ds.length = 2 * (hexDec ds).length →
    run chunks.length { s with pending := chunks.map (HostInput.command 1) ++ later } =
      step { s with pending := .command 1 (ds.map HexDigit.code) :: later }

/-- R88: `BUF_RESET` empties the buffer and nothing else. -/
def Obligations.BufResetEmptiesBuffer : Prop :=
  ∀ s : State, exec .bufReset s = .next { s with buf := [], result := .nothing }

/-- R89: after a desync, whatever is fed next is treated as from an empty buffer; what followed the zero byte in the
same chunk is lost with it. That the transactions stand in `pending` is log 1, and a chunk's operand bytes are log 2.
`BUF_CAP` is the spec's own decision D7 (log 10). -/
def Obligations.RecoveryAfterDesync : Prop :=
  ∀ (s : State) (ds : List HexDigit) (c1 c0 : HexDigit) (lost : List HexDigit) (chunk : List Ch)
    (later : List HostInput),
    s.buf ++ ds = c1 :: c0 :: lost → hexByte c1 c0 = 0 →
    (∀ cap, Config.bufCap = some cap → s.buf.length + ds.length ≤ cap) →
    run 2 { s with pending := .command 1 (ds.map HexDigit.code) :: .command 1 chunk :: later } =
      step { s with buf := [], pending := .command 1 chunk :: later }

/-! ## Frame checks and unpacking -/

/-- R100, R105, R107, R109: an accepted frame updates the 16 records of its page from its slots, leaves the other 16,
and emits `page_update` once; nothing else changes. The slot offsets are the spec's own decision D36 (log 20). The
least length 228 is the spec's own decision D9, and a sequence whose first byte is not its length is log 25. -/
def Obligations.AcceptedFrameUnpacked : Prop :=
  ∀ (f : List Byte) (p : Page) (s : State), AcceptedFrame f p →
    ∃ t : State, exec (.decodeFrame f) s = .next t ∧ PageStored f p s.store t.store ∧
      t = { s with store := t.store, events := s.events ++ [.pageUpdate p], result := .nothing }

/-- R101, R103, R111: every other frame changes no state and emits nothing. The least length 228 is the spec's own
decision D9, and a sequence whose first byte is not its length is log 25. -/
def Obligations.OtherFrameChangesNothing : Prop :=
  ∀ (f : List Byte) (s : State), ¬ AcceptedFrame f .page0 → ¬ AcceptedFrame f .page1 →
    exec (.decodeFrame f) s = .next { s with result := .nothing }

/-- R65: the ignored bits and bytes have no effect: two frames of 228 bytes or more that agree on the bytes and bits
the decoder reads are decoded alike. The ignoring is the spec's own decision D35, and that slot offsets 2 to 7 are
read and 8 to 13 are not is its decision D36 (log 20). A sequence whose first byte is not its length is log 25. -/
def Obligations.IgnoredBytesHaveNoEffect : Prop :=
  ∀ (f g : List Byte) (s : State), 228 ≤ f.length → 228 ≤ g.length →
    (∀ i, 1 ≤ i → i ≤ 3 → f[i]? = g[i]?) →
    (∀ k : Fin 16, f[4 + 14 * k.val]? = g[4 + 14 * k.val]? ∧
      (byteAt f (4 + 14 * k.val + 1)).getLsbD 7 = (byteAt g (4 + 14 * k.val + 1)).getLsbD 7 ∧
      ∀ j, 2 ≤ j → j ≤ 7 → f[4 + 14 * k.val + j]? = g[4 + 14 * k.val + j]?) →
    exec (.decodeFrame f) s = exec (.decodeFrame g) s

/-- R110: end to end, a valid frame fed to an empty buffer updates its 16 records and fires its page update, leaving
the other page's records untouched. The slot offsets and the `rx_check` are the spec's own decisions D36 (log 20) and
D20. The least length 228 is the spec's own decision D9, upper-case text its decision D22 (log 18), and one `exec` for
the pseudo-operation is log 24. -/
def Obligations.TelemetryEndToEnd : Prop :=
  ∀ (f : List Byte) (p : Page) (s : State), s.buf = [] → isFrame f = true → AcceptedFrame f p →
    ∃ t : State, exec (.feedBytes f) s = .next t ∧ PageStored f p s.store t.store ∧
      t = { s with
        store := t.store, events := s.events ++ [.rxCheck (byteCheck f), .pageUpdate p], result := .nothing }

/-! ## Store -/

/-- R124, R125: `STORE_GET` returns the record and the exact difference, and changes nothing. That the difference is
exact and never wrapped is the spec's own decision D12 (R125, log 7), and `result` is log 11. -/
def Obligations.StoreGetReturnsRecord : Prop :=
  ∀ (s : State) (id : Id), exec (.storeGet id) s = .next { s with
    result := .record {
      identifier := s.store[id].identifier, isValid := s.store[id].isValid, raw := s.store[id].raw,
      offset := s.store[id].offset, commanded := s.store[id].commanded,
      calibrated := s.store[id].raw.toInt - s.store[id].offset.toInt } }

/-- R125: the calibrated value is the exact difference of the fields as they are at the `STORE_GET`; it lies in -65535 to
65535 and is never wrapped or saturated to 16 bits (the spec's own decision D12, log 7). -/
def Obligations.CalibratedValueRange : Prop :=
  ∀ (s : State) (id : Id), ∃ v : RecordView, exec (.storeGet id) s = .next { s with result := .record v } ∧
    v.calibrated = s.store[id].raw.toInt - s.store[id].offset.toInt ∧ -65535 ≤ v.calibrated ∧ v.calibrated ≤ 65535

/-- R122: all four fields of one record are replaced at once; its identifier and every other record stay. -/
def Obligations.StoreUpdateOverwritesRecord : Prop :=
  ∀ (s : State) (id : Id) (v : Bool) (raw off cmd : BitVec 16),
    ∃ t : State, exec (.storeUpdate id v raw off cmd) s = .next t ∧
      t.store[id] = { identifier := s.store[id].identifier, isValid := v, raw := raw, offset := off, commanded := cmd } ∧
      (∀ j : Id, j ≠ id → t.store[j] = s.store[j]) ∧ t = { s with store := t.store, result := .nothing }

/-- R120: one invalid record per identifier, its values the draw `INIT_FIELDS`. That all 32 identifiers are
initialised is the spec's own decision D10, and the draw its decision D11 (log 8). -/
def Obligations.StoreInitInvalidatesAll : Prop :=
  ∀ s : State, ∃ t : State, exec .storeInit s = .next t ∧
    (∀ i : Id, t.store[i] = {
      identifier := i, isValid := false, raw := Config.initRaw i, offset := Config.initOffset i,
      commanded := Config.initCommanded i }) ∧
    t = { s with store := t.store, result := .nothing }

/-! ## Pacer -/

/-- R131: `cont` is set, the timer zeroed every time (the spec's own decision D16), the event emitted only on a
change. -/
def Obligations.EnterContinuousMode : Prop :=
  ∀ s : State, exec .setCont1 s = .next { s with
    cont := true, elapsed := 0, result := .nothing,
    events := if s.cont = true then s.events else s.events ++ [.modeChange true] }

/-- R132: `cont` is cleared, `elapsed` and `nextPage` keep their values, the event is emitted only on a change. -/
def Obligations.LeaveContinuousMode : Prop :=
  ∀ s : State, exec .setCont0 s = .next { s with
    cont := false, result := .nothing,
    events := if s.cont = true then s.events ++ [.modeChange false] else s.events }

/-- R134: one request for the current `nextPage`, then the flip. The `tx` event is the spec's own decision D29. -/
def Obligations.IssueRequestFlipsPage : Prop :=
  ∀ s : State, exec .issueRequest s = .next { s with
    events := s.events ++ [.tx (finalizeFrame
      [0x07, 0x01, 0x00, 0x05, (match s.nextPage with | .page0 => 0x00 | .page1 => 0x10), 0xE0, 0xFF])],
    nextPage := (match s.nextPage with | .page0 => .page1 | .page1 => .page0), result := .nothing }

/-- R133: a no-op while continuous; otherwise one request for `nextPage`, then the flip; `elapsed` is not touched. The
`tx` event is the spec's own decision D29. -/
def Obligations.RequestSingleRead : Prop :=
  ∀ s : State, exec .reqSingle s = .next (if s.cont = true then { s with result := .nothing } else { s with
    events := s.events ++ [.tx (finalizeFrame
      [0x07, 0x01, 0x00, 0x05, (match s.nextPage with | .page0 => 0x00 | .page1 => 0x10), 0xE0, 0xFF])],
    nextPage := (match s.nextPage with | .page0 => .page1 | .page1 => .page0), result := .nothing })

/-- R137: a continuous tick issues exactly `floor((e + dt) / I)` requests, alternating pages from `nextPage`, and
leaves `elapsed = (e + dt) mod I`, the remainder kept; from a timer below the interval these are at most `floor(dt /
I) + 1`. The spec marks the arithmetic as derived from R135; whole time units are its decision D15 (log 19). The `tx`
event is the spec's own decision D29, and every natural `dt` its decision D32. -/
def Obligations.ContinuousTickArithmetic : Prop :=
  ∀ (s : State) (dt : Nat), s.cont = true →
    exec (.pacerTick dt) s = .next { s with
      elapsed := (s.elapsed + dt) % 200,
      nextPage := flipPage^[(s.elapsed + dt) / 200] s.nextPage,
      events := s.events ++ (requestsFrom s.nextPage ((s.elapsed + dt) / 200)).map .tx,
      result := .nothing } ∧
    (s.elapsed < 200 → (s.elapsed + dt) / 200 ≤ dt / 200 + 1)

/-- R136: in idle mode `PACER_TICK` does nothing at all (the spec's own decision D18). Whole time units are the spec's
own decision D15 (log 19). -/
def Obligations.IdleTickDoesNothing : Prop :=
  ∀ (s : State) (dt : Nat), s.cont = false → exec (.pacerTick dt) s = .next { s with result := .nothing }

/-- R138: from a zeroed timer, three ticks of 50 leave 50, 100, 150 with no event; the fourth brings one request for
page 0, the flip to page 1, and a timer of 0. That the transactions stand in `pending` is log 1, the operand byte 0x32
for a `dt` of 50 is log 2, and whole units of 1 ms are log 19. The `tx` event is the spec's own decision D29. -/
def Obligations.FourTicksOneRequest : Prop :=
  ∀ (s : State) (later : List HostInput), s.cont = true → s.elapsed = 0 → s.nextPage = .page0 →
    s.pending = List.replicate 4 (.command 6 [0x32]) ++ later →
    (∀ n, 1 ≤ n → n ≤ 3 → run n s = .next { s with
      elapsed := 50 * n, result := .nothing, pending := s.pending.drop n }) ∧
    run 4 s = .next { s with
      elapsed := 0, nextPage := .page1, result := .nothing, pending := later,
      events := s.events ++ [.tx (finalizeFrame [0x07, 0x01, 0x00, 0x05, 0x00, 0xE0, 0xFF])] }

/-- R18: the requests of any transaction but the reset alternate from `nextPage`, which ends as the page after the
last. That the transactions stand in `pending` is the model's own (log 1), as is the list of events (log 11); the `tx`
event is the spec's own decision D29. -/
def Obligations.RequestsAlternate : Prop :=
  ∀ (s t : State) (x : HostInput) (rest : List HostInput), s.pending = x :: rest → x ≠ .reset → step s = .next t →
    ∃ new n, t.events = s.events ++ new ∧ requestsIn new = requestsFrom s.nextPage n ∧
      t.nextPage = flipPage^[n] s.nextPage

/-! ## Outbound -/

/-- R60, R150: the read request, as a frame before `FINALIZE` and as `BUILD_READ` builds it; no state is read or
written. That the wire row READ_REQ means this is the model's reading (log 6). The one-bit page and the composition of
`FINALIZE` are the spec's own decisions D33 and D19 (log 9). -/
def Obligations.ReadRequestBuilt : Prop :=
  ∀ (s : State) (p : Page) (pp : Byte), pp = (match p with | .page0 => 0x00 | .page1 => 0x10) →
    exec (.readReq p) s = .next { s with
      result := .bytes (finalizeFrame [0x07, 0x01, 0x00, 0x05, pp, 0xE0, 0xFF]) } ∧
    exec (.buildRead p) s = .next { s with
      result := .bytes (finalizeFrame [0x07, 0x01, 0x00, 0x05, pp, 0xE0, 0xFF]) }

/-- R152, R153: the all-stop, as a frame before `FINALIZE` and as `BUILD_STOP` builds it: 70 bytes, the last of
`ALLSTOP_PRE` 0xFF. That the wire row ALL_STOP means this is the model's reading (log 6). The open bytes and the
composition of `FINALIZE` are the spec's own decisions D21 and D19 (log 9). -/
def Obligations.AllStopBuilt : Prop :=
  Config.allStopPre.length = 70 ∧ Config.allStopPre[69]? = some 0xFF ∧
    ∀ s : State,
      exec .allStop s = .next { s with result := .bytes (finalizeFrame Config.allStopPre) } ∧
      exec .buildStop s = .next { s with result := .bytes (finalizeFrame Config.allStopPre) }

/-- R154: the transform over the whole, then the checksum of all bytes but the last written over the last (the spec's
own decision D19, log 9). -/
def Obligations.FinalizeComposition : Prop :=
  ∀ (s : State) (pre : List Byte), 1 ≤ pre.length →
    exec (.finalize pre) s = .next { s with
      result := .bytes ((Config.obf pre).take (pre.length - 1) ++ [Config.cks ((Config.obf pre).take (pre.length - 1))]) }

/-- R158: the byte check compares the last byte with `Cks` of the bytes before it, and changes no state (the spec's
own decision D20). The form of `Cks` is log 9. -/
def Obligations.ByteCheckCompares : Prop :=
  ∀ (s : State) (body : List Byte) (last : Byte),
    exec (.rxCheck (body ++ [last])) s = .next { s with result := .truth (last == Config.cks body) }

/-- R159: `RX_CHECK(FINALIZE(pre)) = 1` for every `pre` of length at least 1 (the spec marks this as derived);
`FINALIZE` keeps the length. The kept length rests on the length preservation of `Obf`, the spec's own assumption
(R154, R155, D19; log 9). -/
def Obligations.ByteCheckAcceptsFinalized : Prop :=
  ∀ (s : State) (pre : List Byte), 1 ≤ pre.length →
    ∃ out, exec (.finalize pre) s = .next { s with result := .bytes out } ∧ out.length = pre.length ∧
      exec (.rxCheck out) s = .next { s with result := .truth true }

/-- An operand outside the domain of R54, R59, R154 or R158 stops with the model's own fault (log 16). -/
def Obligations.OutsideDomainFaults : Prop :=
  ∀ s : State, exec (.finalize []) s = .fault .operandDomain ∧ exec (.rxCheck []) s = .fault .operandDomain ∧
    (∀ f, isFrame f = false ∨ isTelemetry f = true → exec (.otherFrame f) s = .fault .operandDomain) ∧
    ∀ t : Telem, 27 < t.tail.length →
      exec (.telemPage0 t) s = .fault .operandDomain ∧ exec (.telemPage1 t) s = .fault .operandDomain

/-! ## Pseudo-operations -/

/-- R140: at most one queued line is fed, the oldest, before the pacer ticks. The line queue as a field is log 12, and
one `exec` for the pseudo-operation is log 24. -/
def Obligations.HostTickFeedsThenTicks : Prop :=
  ∀ (s : State) (dt : Nat),
    (s.lineQueue = [] → ∃ t, exec (.pacerTick dt) s = .next t ∧ exec (.hostTick dt) s = .next t) ∧
    ∀ l q, s.lineQueue = l :: q → ∃ u t, exec (.feed l) { s with lineQueue := q } = .next u ∧
      exec (.pacerTick dt) u = .next t ∧ exec (.hostTick dt) s = .next t

/-- R68: `FEED_BYTES f` is `FEED HexEnc(f)`, the digits upper case, high nibble first. Upper-case text is the spec's
own decision D22 (log 18), and one `exec` for the pseudo-operation is log 24. -/
def Obligations.FeedBytesFeedsHexText : Prop :=
  ∀ (s : State) (f : List Byte), ∃ t, exec (.feed (hexText f)) s = .next t ∧ exec (.feedBytes f) s = .next t

/-- R68: `DRAIN` is one extraction attempt with nothing appended. That an empty chunk is legal is the spec's own
decision D8, and one `exec` for the pseudo-operation is log 24. -/
def Obligations.DrainAttemptsExtraction : Prop :=
  ∀ s : State, s.BufFits → ∃ t, exec .extract s = .next t ∧ exec .drain s = .next t

/-- R68: `FEED_CHARS t` is one `FEED` per character, in order. One `exec` for the pseudo-operation is log 24, and that
no character leaves `result` as it was is log 11. -/
def Obligations.FeedCharsFeedsEachCharacter : Prop :=
  (∀ s : State, exec (.feedChars []) s = .next s) ∧
  ∀ (s : State) (c : Ch) (t : List Ch), ∃ u v, exec (.feed [c]) s = .next u ∧ exec (.feedChars t) u = .next v ∧
    exec (.feedChars (c :: t)) s = .next v

/-- R68: a pseudo-operation is the run of the transactions it stands for; `HOST_TICK` first takes the oldest line off
the host's queue. That the transactions stand in `pending` is log 1, their operand bytes are log 2, the queue is log
12, and one `exec` over the whole expansion is log 24. That the empty chunk of `DRAIN` is legal is the spec's own
decision D8. -/
def Obligations.PseudoOperationRunsExpansion : Prop :=
  ∀ (s : State) (i : Instr) (inputs : List HostInput), expansion s.lineQueue i = some inputs →
    ∃ t, exec i { s with pending := [] } = .next t ∧
      run inputs.length { s with
        pending := inputs,
        lineQueue := (match i with | .hostTick _ => s.lineQueue.tail | _ => s.lineQueue) } = .next t

/-! ## Reset -/

/-- R190: every component at the value of Table Z1, no event; the host's own queues stay (log 13). The reset itself is
the spec's own decision D34 (log 27), the draw is log 8, and the value of `result` is log 26. -/
def Obligations.HardResetRestoresTable : Prop :=
  ∀ s : State, exec .hwReset s = .next { State.reset with
    events := s.events, lineQueue := s.lineQueue, pending := s.pending }

/-- R190, Table Z1: the state right after reset. The values are the spec's own decisions D11, D14, D23 and D34 (log 8,
log 27). -/
def Obligations.ResetStateValues : Prop :=
  State.reset.buf = [] ∧ State.reset.cont = false ∧ State.reset.nextPage = .page0 ∧ State.reset.elapsed = 0 ∧
    State.reset.fault.hexFault = false ∧ State.reset.fault.bufOverflow = false ∧
    ∀ i : Id, State.reset.store[i] = {
      identifier := i, isValid := false, raw := Config.initRaw i, offset := Config.initOffset i,
      commanded := Config.initCommanded i }

/-! ## Whole-machine rules -/

/-- The invariant holds right after reset. The reset values are the spec's own decisions D14 and D34 (log 27), and
`BUF_CAP` its decision D7 (log 10). -/
def Obligations.InvariantAtReset : Prop := State.reset.Inv

/-- R11, R13, R137: every step keeps the buffer within its capacity, the identifiers constant and the timer below the
interval. `BUF_CAP` and whole time units are the spec's own decisions D7 and D15 (log 10, log 19). -/
def Obligations.InvariantKeptByStep : Prop := ∀ s t : State, s.Inv → step s = .next t → t.Inv

/-- Every instruction keeps the invariant too, the internal and the pseudo-operations included. `BUF_CAP` and whole
time units are the spec's own decisions D7 and D15 (log 10, log 19); meanings of rows without a code, of wire rows and
of pseudo-operations are log 3, log 5 and log 24. -/
def Obligations.InvariantKeptByExec : Prop := ∀ (i : Instr) (s t : State), s.Inv → exec i s = .next t → t.Inv

/-- R22: every transaction's effect on the block's state is confined to the "written by" column of its table. That the
transactions stand in `pending` is the model's own (log 1); the fault set and the reset input are the spec's own
decisions D23 and D34. -/
def Obligations.WrittenByColumn : Prop :=
  ∀ (s t : State) (x : HostInput) (rest : List HostInput) (i : Instr), s.pending = x :: rest → decodeHost x = .ok i →
    step s = .next t →
    (t.buf ≠ s.buf → (∃ chunk, i = .feed chunk) ∨ i = .bufReset ∨ i = .hwReset) ∧
    (t.store ≠ s.store → (∃ chunk, i = .feed chunk) ∨ i = .hwReset) ∧
    (t.cont ≠ s.cont → i = .setCont1 ∨ i = .setCont0 ∨ i = .hwReset) ∧
    (t.nextPage ≠ s.nextPage → i = .reqSingle ∨ (∃ dt, i = .pacerTick dt) ∨ i = .hwReset) ∧
    (t.elapsed ≠ s.elapsed → i = .setCont1 ∨ (∃ dt, i = .pacerTick dt) ∨ i = .hwReset) ∧
    (t.fault ≠ s.fault → (∃ chunk, i = .feed chunk) ∨ i = .hwReset)

/-- R177: events are delivered in emission order and are never lost. The accumulating list is the model's own (log
11), and so is that `HW_RESET` keeps it (log 13). -/
def Obligations.EventsNeverLost : Prop := ∀ s t : State, step s = .next t → s.events <+: t.events

/-- R176: the fault bits are sticky; no operation but `HW_RESET` removes one. The fault set is the spec's own decision
D23 (log 14). -/
def Obligations.FaultBitsSticky : Prop :=
  ∀ (s t : State) (i : Instr), i ≠ .hwReset → exec i s = .next t → FaultsKept s t

/-- R176: the fault bits gate nothing: every instruction does the same whatever they are, but to them. The fault set
is the spec's own decision D23 (log 14). -/
def Obligations.FaultBitsGateNothing : Prop :=
  ∀ (s : State) (i : Instr) (f : FaultSet), AgreeButFault (exec i s) (exec i { s with fault := f })
end

