-- ==== Sys2Proof/Laws/Hex.lean ====
section
/-! SUPPORT. Laws/Hex.lean: what the hex text, the alphabet test and the capacity test do. -/

namespace Sys2Proof

theorem hexval_nibbleDigit (n : Fin 16) : hexval (nibbleDigit n) = n.val := by revert n; decide

theorem hexByte_digits (b : Byte) : hexByte (hiDigit b) (loDigit b) = b := by
  have h : 16 * (b.toNat / 16) + b.toNat % 16 = b.toNat := by omega
  simp [hexByte, hiDigit, loDigit, hexval_nibbleDigit, h]

theorem hexval_lt (d : HexDigit) : hexval d < 16 := by
  obtain ⟨c, h⟩ := d
  simp only [isHexDigit, Bool.or_eq_true, Bool.and_eq_true, decide_eq_true_eq] at h
  simp only [hexval]
  split
  · omega
  · split <;> omega

theorem hexByte_toNat (c1 c0 : HexDigit) : (hexByte c1 c0).toNat = 16 * hexval c1 + hexval c0 := by
  have h1 := hexval_lt c1
  have h0 := hexval_lt c0
  simp only [hexByte, BitVec.toNat_ofNat]
  omega

@[simp] theorem hexDec_nil : hexDec [] = [] := rfl
@[simp] theorem hexDec_one (c : HexDigit) : hexDec [c] = [] := rfl
@[simp] theorem hexDec_pair (c1 c0 : HexDigit) (t : List HexDigit) :
    hexDec (c1 :: c0 :: t) = hexByte c1 c0 :: hexDec t := rfl

theorem hexDec_length (t : List HexDigit) : (hexDec t).length = t.length / 2 := by
  induction t using hexDec.induct with
  | case1 c1 c0 t ih => simp [ih]; omega
  | case2 t h =>
    match t, h with
    | [], _ => rfl
    | [c], _ => simp
    | c1 :: c0 :: t, h => exact (h c1 c0 t rfl).elim

/-- The first `n` bytes are spelled by the first `2 * n` characters. -/
theorem hexDec_take (n : Nat) (t : List HexDigit) : hexDec (t.take (2 * n)) = (hexDec t).take n := by
  induction n generalizing t with
  | zero => simp
  | succ n ih =>
    match t with
    | [] => simp
    | [c] => simp [show 2 * (n + 1) = 2 * n + 1 + 1 by ring]
    | c1 :: c0 :: t => simp [show 2 * (n + 1) = 2 * n + 1 + 1 by ring, ih]

@[simp] theorem hexEnc_length (f : List Byte) : (hexEnc f).length = 2 * f.length := by
  induction f with
  | nil => rfl
  | cons b f ih => simp [hexEnc, ih]; ring

/-- A hex chunk passes the alphabet test as its own digits. -/
theorem toHexDigits_codes (ds : List HexDigit) : toHexDigits (ds.map HexDigit.code) = some ds := by
  induction ds with
  | nil => rfl
  | cons d ds ih =>
    have h : isHexDigit d.code = true := d.isHex
    simp [toHexDigits, ih, h]

theorem toHexDigits_some {cs : List Ch} {ds : List HexDigit} (h : toHexDigits cs = some ds) :
    ds.map HexDigit.code = cs := by
  induction cs generalizing ds with
  | nil => simp_all [toHexDigits]
  | cons c cs ih =>
    unfold toHexDigits at h
    split at h
    · split at h
      · next ds' h' => cases h; simp [ih h']
      · cases h
    · cases h

/-- The alphabet test fails exactly on a chunk with a foreign character (R81). -/
theorem toHexDigits_none_iff (cs : List Ch) : toHexDigits cs = none ↔ ∃ c ∈ cs, isHexDigit c = false := by
  induction cs with
  | nil => simp [toHexDigits]
  | cons c cs ih =>
    by_cases h : isHexDigit c = true
    · unfold toHexDigits
      rw [dif_pos h]
      cases h' : toHexDigits cs with
      | none => simp [ih.1 h']
      | some ds =>
        have : ¬ ∃ c ∈ cs, isHexDigit c = false := fun e => by simp [ih.2 e] at h'
        simp only [reduceCtorEq, List.mem_cons, exists_eq_or_imp, false_iff, not_or]
        exact ⟨by simp [h], this⟩
    · unfold toHexDigits
      rw [dif_neg h]
      simp [h]

/-- The capacity test (R82): the count exceeds a finite `BUF_CAP`. -/
theorem Machine.exceedsCap_iff (n : Nat) :
    Machine.exceedsCap n = true ↔ ∃ cap, Config.bufCap = some cap ∧ cap < n := by
  unfold Machine.exceedsCap Machine.exceedsCapOf Config.bufCap
  cases Config.capSlack with
  | none => simp
  | some k => simp; omega

/-- A count that fits passes the capacity test. -/
theorem Machine.exceedsCap_eq_false {n : Nat} (h : ∀ cap, Config.bufCap = some cap → n ≤ cap) :
    Machine.exceedsCap n = false := by
  rw [Bool.eq_false_iff]
  intro e
  obtain ⟨cap, hc, hn⟩ := (Machine.exceedsCap_iff n).1 e
  exact absurd (h cap hc) (by omega)

/-- Every `BUF_CAP` holds the largest frame (D7). -/
theorem Machine.minBufCap_le {cap : Nat} (h : Config.bufCap = some cap) : 510 ≤ cap := by
  unfold Config.bufCap at h
  cases hk : Config.capSlack with
  | none => simp [hk] at h
  | some k => simp [hk] at h; omega

end Sys2Proof
end

