-- ==== Sys2Proof/Laws/State.lean ====
section
/-! SUPPORT. Laws/State.lean: one lemma per field per update of the state, true by definition, for simp. -/

namespace Sys2Proof.Machine

/-! ## emit -/

@[simp] theorem emit_buf (e : Event) (s : State) : (emit e s).buf = s.buf := rfl
@[simp] theorem emit_store (e : Event) (s : State) : (emit e s).store = s.store := rfl
@[simp] theorem emit_cont (e : Event) (s : State) : (emit e s).cont = s.cont := rfl
@[simp] theorem emit_nextPage (e : Event) (s : State) : (emit e s).nextPage = s.nextPage := rfl
@[simp] theorem emit_elapsed (e : Event) (s : State) : (emit e s).elapsed = s.elapsed := rfl
@[simp] theorem emit_fault (e : Event) (s : State) : (emit e s).fault = s.fault := rfl
@[simp] theorem emit_events (e : Event) (s : State) : (emit e s).events = s.events ++ [e] := rfl
@[simp] theorem emit_result (e : Event) (s : State) : (emit e s).result = s.result := rfl
@[simp] theorem emit_lineQueue (e : Event) (s : State) : (emit e s).lineQueue = s.lineQueue := rfl
@[simp] theorem emit_pending (e : Event) (s : State) : (emit e s).pending = s.pending := rfl

/-! ## returns -/

@[simp] theorem returns_buf (r : Result) (s : State) : (returns r s).buf = s.buf := rfl
@[simp] theorem returns_store (r : Result) (s : State) : (returns r s).store = s.store := rfl
@[simp] theorem returns_cont (r : Result) (s : State) : (returns r s).cont = s.cont := rfl
@[simp] theorem returns_nextPage (r : Result) (s : State) : (returns r s).nextPage = s.nextPage := rfl
@[simp] theorem returns_elapsed (r : Result) (s : State) : (returns r s).elapsed = s.elapsed := rfl
@[simp] theorem returns_fault (r : Result) (s : State) : (returns r s).fault = s.fault := rfl
@[simp] theorem returns_events (r : Result) (s : State) : (returns r s).events = s.events := rfl
@[simp] theorem returns_result (r : Result) (s : State) : (returns r s).result = r := rfl
@[simp] theorem returns_lineQueue (r : Result) (s : State) : (returns r s).lineQueue = s.lineQueue := rfl
@[simp] theorem returns_pending (r : Result) (s : State) : (returns r s).pending = s.pending := rfl

/-! ## raise -/

@[simp] theorem raise_buf (k : FaultName) (s : State) : (raise k s).buf = s.buf := rfl
@[simp] theorem raise_store (k : FaultName) (s : State) : (raise k s).store = s.store := rfl
@[simp] theorem raise_cont (k : FaultName) (s : State) : (raise k s).cont = s.cont := rfl
@[simp] theorem raise_nextPage (k : FaultName) (s : State) : (raise k s).nextPage = s.nextPage := rfl
@[simp] theorem raise_elapsed (k : FaultName) (s : State) : (raise k s).elapsed = s.elapsed := rfl
@[simp] theorem raise_fault (k : FaultName) (s : State) : (raise k s).fault = s.fault.insert k := rfl
@[simp] theorem raise_events (k : FaultName) (s : State) : (raise k s).events = s.events := rfl
@[simp] theorem raise_result (k : FaultName) (s : State) : (raise k s).result = s.result := rfl
@[simp] theorem raise_lineQueue (k : FaultName) (s : State) : (raise k s).lineQueue = s.lineQueue := rfl
@[simp] theorem raise_pending (k : FaultName) (s : State) : (raise k s).pending = s.pending := rfl

/-! ## appendBuf -/

@[simp] theorem appendBuf_buf (ds : List HexDigit) (s : State) : (appendBuf ds s).buf = s.buf ++ ds := rfl
@[simp] theorem appendBuf_store (ds : List HexDigit) (s : State) : (appendBuf ds s).store = s.store := rfl
@[simp] theorem appendBuf_cont (ds : List HexDigit) (s : State) : (appendBuf ds s).cont = s.cont := rfl
@[simp] theorem appendBuf_nextPage (ds : List HexDigit) (s : State) : (appendBuf ds s).nextPage = s.nextPage := rfl
@[simp] theorem appendBuf_elapsed (ds : List HexDigit) (s : State) : (appendBuf ds s).elapsed = s.elapsed := rfl
@[simp] theorem appendBuf_fault (ds : List HexDigit) (s : State) : (appendBuf ds s).fault = s.fault := rfl
@[simp] theorem appendBuf_events (ds : List HexDigit) (s : State) : (appendBuf ds s).events = s.events := rfl
@[simp] theorem appendBuf_result (ds : List HexDigit) (s : State) : (appendBuf ds s).result = s.result := rfl
@[simp] theorem appendBuf_lineQueue (ds : List HexDigit) (s : State) : (appendBuf ds s).lineQueue = s.lineQueue := rfl
@[simp] theorem appendBuf_pending (ds : List HexDigit) (s : State) : (appendBuf ds s).pending = s.pending := rfl

/-! ## consume -/

@[simp] theorem consume_buf (n : Nat) (s : State) : (consume n s).buf = s.buf.drop n := rfl
@[simp] theorem consume_store (n : Nat) (s : State) : (consume n s).store = s.store := rfl
@[simp] theorem consume_cont (n : Nat) (s : State) : (consume n s).cont = s.cont := rfl
@[simp] theorem consume_nextPage (n : Nat) (s : State) : (consume n s).nextPage = s.nextPage := rfl
@[simp] theorem consume_elapsed (n : Nat) (s : State) : (consume n s).elapsed = s.elapsed := rfl
@[simp] theorem consume_fault (n : Nat) (s : State) : (consume n s).fault = s.fault := rfl
@[simp] theorem consume_events (n : Nat) (s : State) : (consume n s).events = s.events := rfl
@[simp] theorem consume_result (n : Nat) (s : State) : (consume n s).result = s.result := rfl
@[simp] theorem consume_lineQueue (n : Nat) (s : State) : (consume n s).lineQueue = s.lineQueue := rfl
@[simp] theorem consume_pending (n : Nat) (s : State) : (consume n s).pending = s.pending := rfl

/-! ## clearBuf -/

@[simp] theorem clearBuf_buf (s : State) : (clearBuf s).buf = [] := rfl
@[simp] theorem clearBuf_store (s : State) : (clearBuf s).store = s.store := rfl
@[simp] theorem clearBuf_cont (s : State) : (clearBuf s).cont = s.cont := rfl
@[simp] theorem clearBuf_nextPage (s : State) : (clearBuf s).nextPage = s.nextPage := rfl
@[simp] theorem clearBuf_elapsed (s : State) : (clearBuf s).elapsed = s.elapsed := rfl
@[simp] theorem clearBuf_fault (s : State) : (clearBuf s).fault = s.fault := rfl
@[simp] theorem clearBuf_events (s : State) : (clearBuf s).events = s.events := rfl
@[simp] theorem clearBuf_result (s : State) : (clearBuf s).result = s.result := rfl
@[simp] theorem clearBuf_lineQueue (s : State) : (clearBuf s).lineQueue = s.lineQueue := rfl
@[simp] theorem clearBuf_pending (s : State) : (clearBuf s).pending = s.pending := rfl

/-! ## initializeStore -/

@[simp] theorem initializeStore_buf (s : State) : (initializeStore s).buf = s.buf := rfl
@[simp] theorem initializeStore_store (s : State) : (initializeStore s).store = initStore := rfl
@[simp] theorem initializeStore_cont (s : State) : (initializeStore s).cont = s.cont := rfl
@[simp] theorem initializeStore_nextPage (s : State) : (initializeStore s).nextPage = s.nextPage := rfl
@[simp] theorem initializeStore_elapsed (s : State) : (initializeStore s).elapsed = s.elapsed := rfl
@[simp] theorem initializeStore_fault (s : State) : (initializeStore s).fault = s.fault := rfl
@[simp] theorem initializeStore_events (s : State) : (initializeStore s).events = s.events := rfl
@[simp] theorem initializeStore_result (s : State) : (initializeStore s).result = s.result := rfl
@[simp] theorem initializeStore_lineQueue (s : State) : (initializeStore s).lineQueue = s.lineQueue := rfl
@[simp] theorem initializeStore_pending (s : State) : (initializeStore s).pending = s.pending := rfl

/-! ## updateRecord -/

@[simp] theorem updateRecord_buf (id : Id) (v : Bool) (raw off cmd : BitVec 16) (s : State) : (updateRecord id v raw off cmd s).buf = s.buf := rfl
@[simp] theorem updateRecord_cont (id : Id) (v : Bool) (raw off cmd : BitVec 16) (s : State) : (updateRecord id v raw off cmd s).cont = s.cont := rfl
@[simp] theorem updateRecord_nextPage (id : Id) (v : Bool) (raw off cmd : BitVec 16) (s : State) : (updateRecord id v raw off cmd s).nextPage = s.nextPage := rfl
@[simp] theorem updateRecord_elapsed (id : Id) (v : Bool) (raw off cmd : BitVec 16) (s : State) : (updateRecord id v raw off cmd s).elapsed = s.elapsed := rfl
@[simp] theorem updateRecord_fault (id : Id) (v : Bool) (raw off cmd : BitVec 16) (s : State) : (updateRecord id v raw off cmd s).fault = s.fault := rfl
@[simp] theorem updateRecord_events (id : Id) (v : Bool) (raw off cmd : BitVec 16) (s : State) : (updateRecord id v raw off cmd s).events = s.events := rfl
@[simp] theorem updateRecord_result (id : Id) (v : Bool) (raw off cmd : BitVec 16) (s : State) : (updateRecord id v raw off cmd s).result = s.result := rfl
@[simp] theorem updateRecord_lineQueue (id : Id) (v : Bool) (raw off cmd : BitVec 16) (s : State) : (updateRecord id v raw off cmd s).lineQueue = s.lineQueue := rfl
@[simp] theorem updateRecord_pending (id : Id) (v : Bool) (raw off cmd : BitVec 16) (s : State) : (updateRecord id v raw off cmd s).pending = s.pending := rfl

/-! ## issue -/

@[simp] theorem issue_buf (s : State) : (issue s).buf = s.buf := rfl
@[simp] theorem issue_store (s : State) : (issue s).store = s.store := rfl
@[simp] theorem issue_cont (s : State) : (issue s).cont = s.cont := rfl
@[simp] theorem issue_nextPage (s : State) : (issue s).nextPage = flipPage s.nextPage := rfl
@[simp] theorem issue_elapsed (s : State) : (issue s).elapsed = s.elapsed := rfl
@[simp] theorem issue_fault (s : State) : (issue s).fault = s.fault := rfl
@[simp] theorem issue_events (s : State) : (issue s).events = s.events ++ [.tx (readRequest s.nextPage)] := rfl
@[simp] theorem issue_result (s : State) : (issue s).result = s.result := rfl
@[simp] theorem issue_lineQueue (s : State) : (issue s).lineQueue = s.lineQueue := rfl
@[simp] theorem issue_pending (s : State) : (issue s).pending = s.pending := rfl

/-! ## hardReset -/

@[simp] theorem hardReset_buf (s : State) : (hardReset s).buf = [] := rfl
@[simp] theorem hardReset_store (s : State) : (hardReset s).store = initStore := rfl
@[simp] theorem hardReset_cont (s : State) : (hardReset s).cont = false := rfl
@[simp] theorem hardReset_nextPage (s : State) : (hardReset s).nextPage = .page0 := rfl
@[simp] theorem hardReset_elapsed (s : State) : (hardReset s).elapsed = 0 := rfl
@[simp] theorem hardReset_fault (s : State) : (hardReset s).fault = FaultSet.empty := rfl
@[simp] theorem hardReset_events (s : State) : (hardReset s).events = s.events := rfl
@[simp] theorem hardReset_result (s : State) : (hardReset s).result = s.result := rfl
@[simp] theorem hardReset_lineQueue (s : State) : (hardReset s).lineQueue = s.lineQueue := rfl
@[simp] theorem hardReset_pending (s : State) : (hardReset s).pending = s.pending := rfl

/-! ## The store after one update -/

@[simp] theorem updateRecord_store_self (id : Id) (v : Bool) (raw off cmd : BitVec 16) (s : State) :
    (updateRecord id v raw off cmd s).store[id.val] =
      { s.store[id] with isValid := v, raw := raw, offset := off, commanded := cmd } := by
  simp [updateRecord]

theorem updateRecord_store_ne (id j : Id) (v : Bool) (raw off cmd : BitVec 16) (s : State) (h : j ≠ id) :
    (updateRecord id v raw off cmd s).store[j.val] = s.store[j.val] := by
  have : id.val ≠ j.val := fun e => h (Fin.ext e.symm)
  simp [updateRecord, this]

@[simp] theorem initStore_get (i : Id) : initStore[i.val] = initRecord i := by simp [initStore]

end Sys2Proof.Machine
end

