-- ==== Sys2Proof/Laws/Ops.lean ====
section
/-! SUPPORT. Laws/Ops.lean: for each shared operation, once, everything it can do. -/

namespace Sys2Proof.Machine

/-! ## FEED and EXTRACT -/

/-- The three outcomes of a `FEED` (R80 to R82, R179). -/
theorem feedChunk_cases (chunk : List Ch) (s : State) :
    (toHexDigits chunk = none ∧ feedChunk chunk s = raise .hexFault s) ∨
    (∃ ds, toHexDigits chunk = some ds ∧ exceedsCap (s.buf.length + chunk.length) = true ∧
      feedChunk chunk s = raise .bufOverflow s) ∨
    (∃ ds, toHexDigits chunk = some ds ∧ exceedsCap (s.buf.length + chunk.length) = false ∧
      feedChunk chunk s = extractFrame (appendBuf ds s)) := by
  unfold feedChunk
  cases h : toHexDigits chunk with
  | none => simp
  | some ds => cases h' : exceedsCap (s.buf.length + chunk.length) <;> simp

/-- The four outcomes of an extraction attempt (R83, R84). -/
theorem extractFrame_cases (s : State) :
    (s.buf.length < 2 ∧ extractFrame s = s) ∨
    ∃ c1 c0 rest, s.buf = c1 :: c0 :: rest ∧
      (((hexByte c1 c0).toNat = 0 ∧ extractFrame s = clearBuf s) ∨
       ((hexByte c1 c0).toNat ≠ 0 ∧ s.buf.length < 2 * (hexByte c1 c0).toNat ∧ extractFrame s = s) ∨
       ((hexByte c1 c0).toNat ≠ 0 ∧ 2 * (hexByte c1 c0).toNat ≤ s.buf.length ∧
        extractFrame s = dispatchFrame (hexDec (s.buf.take (2 * (hexByte c1 c0).toNat)))
          (emit (.rxCheck (byteCheck (hexDec (s.buf.take (2 * (hexByte c1 c0).toNat)))))
            (consume (2 * (hexByte c1 c0).toNat) s)))) := by
  unfold extractFrame
  match h : s.buf with
  | [] => simp
  | [c] => simp
  | c1 :: c0 :: rest =>
    refine Or.inr ⟨c1, c0, rest, rfl, ?_⟩
    by_cases h0 : (hexByte c1 c0).toNat = 0
    · simp [h0]
    · by_cases hl : (c1 :: c0 :: rest).length < 2 * (hexByte c1 c0).toNat
      · exact Or.inr (Or.inl ⟨h0, hl, by simp only [h0, if_false]; rw [if_pos (by simpa [h] using hl)]⟩)
      · refine Or.inr (Or.inr ⟨h0, by omega, ?_⟩)
        simp only [h0, if_false]
        rw [if_neg (by simpa [h] using hl)]

/-! ## DECODE -/

/-- A frame fails a check and nothing happens, or it passes both and its slots are unpacked (R100). -/
theorem dispatchFrame_cases (f : List Byte) (s : State) :
    (isTelemetry f = false ∧ dispatchFrame f s = s) ∨
    (isTelemetry f = true ∧ dispatchFrame f s =
      emit (.pageUpdate (pageOfBase (byteAt f 4))) ((List.range 16).foldl (unpackSlot f) s)) := by
  unfold dispatchFrame isTelemetry
  cases coarse f <;> cases fine f <;> simp

/-- One slot writes one record or none (R108). -/
theorem unpackSlot_cases (f : List Byte) (s : State) (k : Nat) :
    unpackSlot f s k = s ∨ ∃ id v raw off cmd, unpackSlot f s k = updateRecord id v raw off cmd s := by
  unfold unpackSlot
  by_cases h1 : f.length < slotAt k + Config.recBytes
  · exact Or.inl (by rw [if_pos h1])
  · by_cases h2 : (byteAt f (slotAt k + Config.idAt)).toNat < 32
    · exact Or.inr ⟨_, _, _, _, _, by rw [if_neg h1, dif_pos h2]⟩
    · exact Or.inl (by rw [if_neg h1, dif_neg h2])

/-- Unpacking changes the store and nothing else. -/
theorem foldl_unpackSlot_eq (f : List Byte) (ks : List Nat) (s : State) :
    ks.foldl (unpackSlot f) s = { s with store := (ks.foldl (unpackSlot f) s).store } := by
  induction ks generalizing s with
  | nil => rfl
  | cons k ks ih =>
    rw [List.foldl_cons]
    rcases unpackSlot_cases f s k with h | ⟨id, v, raw, off, cmd, h⟩
    · rw [h]; exact ih s
    · rw [h]; exact ih _

/-- A property of every record that each update keeps is kept by unpacking. -/
theorem foldl_unpackSlot_inv (P : State → Prop)
    (hP : ∀ id v raw off cmd s, P s → P (updateRecord id v raw off cmd s)) (f : List Byte) (ks : List Nat) (s : State)
    (hs : P s) : P (ks.foldl (unpackSlot f) s) := by
  induction ks generalizing s with
  | nil => exact hs
  | cons k ks ih =>
    rw [List.foldl_cons]
    refine ih _ ?_
    rcases unpackSlot_cases f s k with h | ⟨id, v, raw, off, cmd, h⟩ <;> rw [h]
    · exact hs
    · exact hP _ _ _ _ _ _ hs

/-- The updates of a telemetry response change the store and nothing else. -/
theorem storeSlots_eq (p : Page) (t : Telem) (s : State) :
    storeSlots p t s = { s with store := (storeSlots p t s).store } := by
  unfold storeSlots
  generalize List.finRange 16 = ks
  induction ks generalizing s with
  | nil => rfl
  | cons k ks ih => rw [List.foldl_cons]; exact ih _

/-- A property that each record update keeps is kept by the updates of a telemetry response. -/
theorem storeSlots_inv (P : State → Prop)
    (hP : ∀ id v raw off cmd s, P s → P (updateRecord id v raw off cmd s)) (p : Page) (t : Telem) (s : State)
    (hs : P s) : P (storeSlots p t s) := by
  unfold storeSlots
  generalize List.finRange 16 = ks
  induction ks generalizing s with
  | nil => exact hs
  | cons k ks ih => rw [List.foldl_cons]; exact ih _ (hP _ _ _ _ _ _ hs)

/-! ## The pacer -/

/-- A single request: nothing while continuous, one issued request otherwise (R133). -/
theorem requestOnce_cases (s : State) :
    (s.cont = true ∧ requestOnce s = s) ∨ (s.cont = false ∧ requestOnce s = issue s) := by
  unfold requestOnce
  cases s.cont <;> simp

/-- A tick: nothing in idle mode, the catch-up loop in continuous mode (R135, R136). -/
theorem tick_cases (dt : Nat) (s : State) :
    (s.cont = false ∧ tick dt s = s) ∨
    (s.cont = true ∧ tick dt s = catchUp (s.elapsed + dt) { s with elapsed := s.elapsed + dt }) := by
  unfold tick
  cases s.cont <;> simp

/-- One pass of the catch-up loop (R135). -/
theorem catchUp_succ (fuel : Nat) (s : State) :
    catchUp (fuel + 1) s =
      if 200 ≤ s.elapsed then catchUp fuel { issue s with elapsed := s.elapsed - 200 } else s := rfl

/-- A property that an issued request and a shortened timer keep is kept by the catch-up loop. -/
theorem catchUp_inv (P : State → Prop) (hP : ∀ s n, P s → P { issue s with elapsed := n }) (fuel : Nat) (s : State)
    (hs : P s) : P (catchUp fuel s) := by
  induction fuel generalizing s with
  | zero => exact hs
  | succ fuel ih =>
    rw [catchUp_succ]
    split
    · exact ih _ (hP _ _ hs)
    · exact hs

/-- The loop ends below the interval (R137). -/
theorem catchUp_elapsed_lt (fuel : Nat) (s : State) (h : s.elapsed ≤ fuel) : (catchUp fuel s).elapsed < 200 := by
  induction fuel generalizing s with
  | zero => simp [catchUp]; omega
  | succ fuel ih =>
    rw [catchUp_succ]
    split
    · exact ih _ (by simp; omega)
    · omega

end Sys2Proof.Machine
end

