-- ==== Sys2Proof/Laws/Frames.lean ====
section
/-! SUPPORT. Laws/Frames.lean: the frame checks in the words of R101 and R103, the store after a page's updates, and
the agreement of the two ways an accepted frame is unpacked. -/

namespace Sys2Proof.Machine

/-! ## Identifiers of a page -/

theorem pageId_inj (p : Page) (j k : Fin 16) : pageId p j = pageId p k ↔ j = k := by
  cases p <;> simp [pageId, Fin.ext_iff]

theorem pageId_flip_ne (p : Page) (j k : Fin 16) : pageId (flipPage p) j ≠ pageId p k := by
  cases p <;> simp [pageId, flipPage, Fin.ext_iff] <;> omega

/-- The Id byte of slot `k` names record `pageId p k` (R58). -/
theorem slotId_toNat (p : Page) (k : Fin 16) : (pageBase p + BitVec.ofNat 8 k.val).toNat = (pageId p k).val := by
  cases p <;> revert k <;> decide

/-- Each of the 32 records belongs to one page. -/
theorem exists_pageId (i : Id) : ∃ p k, i = pageId p k := by
  by_cases h : i.val < 16
  · exact ⟨.page0, ⟨i.val, h⟩, rfl⟩
  · exact ⟨.page1, ⟨i.val - 16, by omega⟩, Fin.ext (by simp [pageId]; omega)⟩

/-! ## The store after a page's updates -/

/-- The update from one slot of a telemetry response (R105). -/
def slotWrite (p : Page) (t : Telem) (s : State) (k : Fin 16) : State :=
  updateRecord (pageId p k) (validity t.slots[k].flags) t.slots[k].raw t.slots[k].offset t.slots[k].commanded s

/-- The record the update of slot `k` leaves (R105, R122). -/
def slotValue (sl : Slot) (old : Record) : Record :=
  { old with isValid := validity sl.flags, raw := sl.raw, offset := sl.offset, commanded := sl.commanded }

theorem storeSlots_eq_foldl (p : Page) (t : Telem) (s : State) :
    storeSlots p t s = (List.finRange 16).foldl (slotWrite p t) s := rfl

theorem slotWrite_self (p : Page) (t : Telem) (s : State) (k : Fin 16) :
    (slotWrite p t s k).store[(pageId p k).val] = slotValue t.slots[k] s.store[(pageId p k).val] := by
  simp [slotWrite, slotValue]

theorem slotWrite_other (p : Page) (t : Telem) (s : State) (k : Fin 16) (i : Id) (h : i ≠ pageId p k) :
    (slotWrite p t s k).store[i.val] = s.store[i.val] := updateRecord_store_ne _ _ _ _ _ _ _ h

theorem foldl_slotWrite_other (p : Page) (t : Telem) (ks : List (Fin 16)) (s : State) (i : Id)
    (h : ∀ k ∈ ks, i ≠ pageId p k) : (ks.foldl (slotWrite p t) s).store[i.val] = s.store[i.val] := by
  induction ks generalizing s with
  | nil => rfl
  | cons k ks ih =>
    rw [List.foldl_cons, ih _ fun j hj => h j (List.mem_cons_of_mem _ hj)]
    exact slotWrite_other _ _ _ _ _ (h k List.mem_cons_self)

theorem foldl_slotWrite_self (p : Page) (t : Telem) (ks : List (Fin 16)) (hn : ks.Nodup) (s : State) (k : Fin 16)
    (hk : k ∈ ks) : (ks.foldl (slotWrite p t) s).store[(pageId p k).val] =
      slotValue t.slots[k] s.store[(pageId p k).val] := by
  induction ks generalizing s with
  | nil => cases hk
  | cons j ks ih =>
    rw [List.foldl_cons]
    obtain ⟨hj, hn⟩ := List.nodup_cons.1 hn
    by_cases e : k = j
    · subst e
      rw [foldl_slotWrite_other _ _ _ _ _ fun i hi => ?_, slotWrite_self]
      intro h
      exact hj ((pageId_inj p k i).1 h ▸ hi)
    · rw [ih hn _ ((List.mem_cons.1 hk).resolve_left e), slotWrite_other]
      exact fun h => e ((pageId_inj p k j).1 h)

/-- The 16 records of the page after its updates (R107). -/
theorem storeSlots_self (p : Page) (t : Telem) (s : State) (k : Fin 16) :
    (storeSlots p t s).store[(pageId p k).val] = slotValue t.slots[k] s.store[(pageId p k).val] :=
  foldl_slotWrite_self p t _ (List.nodup_finRange 16) s k (List.mem_finRange k)

/-- The records of the other page are untouched (R107). -/
theorem storeSlots_other (p : Page) (t : Telem) (s : State) (k : Fin 16) :
    (storeSlots p t s).store[(pageId (flipPage p) k).val] = s.store[(pageId (flipPage p) k).val] :=
  foldl_slotWrite_other p t _ s _ fun j _ => pageId_flip_ne p k j

/-! ## The frame checks -/

/-- The two checks, in the words of R101 and R103. -/
theorem isTelemetry_iff (f : List Byte) :
    isTelemetry f = true ↔ AcceptedFrame f .page0 ∨ AcceptedFrame f .page1 := by
  unfold isTelemetry coarse fine AcceptedFrame
  constructor
  · intro h
    simp only [Bool.and_eq_true, decide_eq_true_eq, beq_iff_eq] at h
    obtain ⟨⟨⟨⟨h0, h1⟩, h2⟩, h3⟩, h4⟩ := h
    split at h4
    · cases h4
    · next base hb =>
      simp only [Bool.and_eq_true, Bool.or_eq_true, beq_iff_eq, List.all_eq_true, List.mem_range] at h4
      obtain ⟨hp, hall⟩ := h4
      have key : ∀ k : Fin 16, f[4 + 14 * k.val]? = some (base + BitVec.ofNat 8 k.val) := fun k => by
        simpa [slotAt] using hall k.val k.isLt
      rcases hp with rfl | rfl
      · exact Or.inl ⟨h0, h1, h2, h3, key⟩
      · exact Or.inr ⟨h0, h1, h2, h3, key⟩
  · intro h
    have key : ∀ p, AcceptedFrame f p → f[4]? = some (pageBase p) := fun p hp => by
      have := hp.2.2.2.2 0
      simpa using this
    rcases h with h | h
    all_goals
      have hb := key _ h
      obtain ⟨h0, h1, h2, h3, hk⟩ := h
      simp only [Bool.and_eq_true, decide_eq_true_eq, beq_iff_eq]
      refine ⟨⟨⟨⟨h0, h1⟩, h2⟩, h3⟩, ?_⟩
      simp only [Config.hdrBytes, hb, Bool.and_eq_true, List.all_eq_true, List.mem_range]
      exact ⟨by simp, fun k hk' => by simpa [slotAt] using hk ⟨k, hk'⟩⟩

theorem byteAt_of_getElem? {f : List Byte} {i : Nat} {b : Byte} (h : f[i]? = some b) : byteAt f i = b := by
  simp [byteAt, h]

/-- Byte 4 of an accepted frame is the base of its page (R103). -/
theorem AcceptedFrame.base {f : List Byte} {p : Page} (h : AcceptedFrame f p) : byteAt f 4 = pageBase p := by
  have := h.2.2.2.2 0
  exact byteAt_of_getElem? (by simpa using this)

theorem AcceptedFrame.page_unique {f : List Byte} {p q : Page} (hp : AcceptedFrame f p) (hq : AcceptedFrame f q) :
    p = q := by
  have h := hp.base.symm.trans hq.base
  cases p <;> cases q <;> first | rfl | (revert h; decide)

theorem pageOfBase_pageBase (p : Page) : pageOfBase (pageBase p) = p := by cases p <;> decide

/-! ## The two ways an accepted frame is unpacked -/

/-- One pass of the loop of `DECODE` on an accepted frame is the update from that slot (R105, R108). -/
theorem unpackSlot_accepted {f : List Byte} {p : Page} (h : AcceptedFrame f p) (s : State) (k : Fin 16) :
    unpackSlot f s k.val = slotWrite p (telemOf f) s k := by
  have hid : byteAt f (slotAt k.val + Config.idAt) = pageBase p + BitVec.ofNat 8 k.val :=
    byteAt_of_getElem? (by simpa [slotAt] using h.2.2.2.2 k)
  have hlt : (byteAt f (slotAt k.val + Config.idAt)).toNat < 32 := by
    rw [hid, slotId_toNat]; exact (pageId p k).isLt
  have hlen : ¬ f.length < slotAt k.val + Config.recBytes := by
    have := h.1; simp [slotAt]; omega
  have he : (⟨_, hlt⟩ : Id) = pageId p k := Fin.ext (by simp only [hid, slotId_toNat])
  unfold unpackSlot
  simp only [if_neg hlen, dif_pos hlt, he]
  simp [slotWrite, telemOf, slotOf]

/-- The loop of `DECODE` on an accepted frame is the updates of its telemetry response. -/
theorem foldl_unpackSlot_accepted {f : List Byte} {p : Page} (h : AcceptedFrame f p) (s : State) :
    (List.range 16).foldl (unpackSlot f) s = storeSlots p (telemOf f) s := by
  have hr : List.range 16 = (List.finRange 16).map Fin.val := by decide
  rw [hr, List.foldl_map, storeSlots_eq_foldl]
  congr 1
  funext s k
  exact unpackSlot_accepted h s k

/-- `DECODE` on an accepted frame (R100, R109). -/
theorem dispatchFrame_accepted {f : List Byte} {p : Page} (h : AcceptedFrame f p) (s : State) :
    dispatchFrame f s = emit (.pageUpdate p) (storeSlots p (telemOf f) s) := by
  have ht : isTelemetry f = true := (isTelemetry_iff f).2 (by cases p <;> simp [h])
  rcases dispatchFrame_cases f s with h' | h'
  · rw [ht] at h'; cases h'.1
  · rw [h'.2, foldl_unpackSlot_accepted h, h.base, pageOfBase_pageBase]

/-- `DECODE` on any other frame (R111). -/
theorem dispatchFrame_rejected {f : List Byte} (h : isTelemetry f = false) (s : State) : dispatchFrame f s = s := by
  rcases dispatchFrame_cases f s with h' | h'
  · exact h'.2
  · rw [h] at h'; cases h'.1

end Sys2Proof.Machine
end

