-- ==== Sys2Proof/Laws/Codec.lean ====
section
/-! SUPPORT. Laws/Codec.lean: where the encoder puts each byte of a telemetry response, and what the decoder finds
there. -/

namespace Sys2Proof

/-! ## Natural-number operands -/

/-- Enough operand bytes spell the number (log 2). -/
theorem natOfBytes_bytesOfNat {fuel n : Nat} (h : n ≤ fuel) : natOfBytes (bytesOfNat fuel n) = n := by
  induction fuel generalizing n with
  | zero =>
    simp only [Nat.le_zero] at h
    subst h
    rfl
  | succ fuel ih =>
    unfold bytesOfNat
    split
    · subst_vars; rfl
    · rw [natOfBytes, ih (by omega), BitVec.toNat_ofNat]
      omega

/-! ## 16-bit fields -/

@[simp] theorem loByte_s16 (a b : Byte) : loByte (s16 a b) = a := by
  apply BitVec.eq_of_getLsbD_eq; intro i hi
  simp only [s16, loByte, BitVec.getLsbD_append, BitVec.getLsbD_extractLsb']
  simp [hi]

@[simp] theorem hiByte_s16 (a b : Byte) : hiByte (s16 a b) = b := by
  apply BitVec.eq_of_getLsbD_eq; intro i hi
  simp only [s16, hiByte, BitVec.getLsbD_append, BitVec.getLsbD_extractLsb']
  simp [hi]

@[simp] theorem s16_lo_hi (w : BitVec 16) : s16 (loByte w) (hiByte w) = w := by
  apply BitVec.eq_of_getLsbD_eq; intro i hi
  simp only [s16, loByte, hiByte, BitVec.getLsbD_append, BitVec.getLsbD_extractLsb']
  by_cases h : i < 8
  · simp [h]
  · simp [h, show i - 8 < 8 by omega, show 8 + (i - 8) = i by omega]

/-! ## Lists of blocks of one length -/

theorem flatMap_length_const {α β : Type} (g : α → List β) (c : Nat) (hc : ∀ a, (g a).length = c) (l : List α) :
    (l.flatMap g).length = c * l.length := by
  induction l with
  | nil => simp
  | cons a l ih => simp [ih, hc]; ring

/-- Element `j` of block `k`. -/
theorem flatMap_getElem?_const {α β : Type} (g : α → List β) (c : Nat) (hc : ∀ a, (g a).length = c) (l : List α)
    (k j : Nat) (hj : j < c) : (l.flatMap g)[c * k + j]? = l[k]?.bind fun a => (g a)[j]? := by
  induction l generalizing k with
  | nil => simp
  | cons a l ih =>
    rw [List.flatMap_cons]
    cases k with
    | zero => rw [List.getElem?_append_left (by rw [hc]; omega)]; simp
    | succ k =>
      rw [List.getElem?_append_right (by rw [hc, Nat.mul_succ]; omega), hc,
        show c * (k + 1) + j - c = c * k + j by rw [Nat.mul_succ]; omega, ih]
      simp

/-! ## Telemetry responses -/

@[simp] theorem encodeSlot_length (id : Byte) (sl : Slot) : (encodeSlot id sl).length = 14 := by simp [encodeSlot]

@[simp] theorem encodeTelem_length (p : Page) (t : Telem) : (encodeTelem p t).length = 228 + t.tail.length := by
  rw [encodeTelem, List.length_append, List.length_append, flatMap_length_const _ 14 fun _ => encodeSlot_length _ _]
  simp

/-- The header bytes (Table F1). -/
theorem encodeTelem_head (p : Page) (t : Telem) (i : Nat) (h : i < 4) :
    (encodeTelem p t)[i]? =
      [BitVec.ofNat 8 (228 + t.tail.length), (0xE4 : Byte), (0x01 : Byte), (0x00 : Byte)][i]? := by
  rw [encodeTelem, List.append_assoc, List.getElem?_append_left (by simpa using h)]

/-- Byte `j` of slot `k` (Table F2). -/
theorem encodeTelem_slot (p : Page) (t : Telem) (k : Fin 16) (j : Nat) (hj : j < 14) :
    (encodeTelem p t)[4 + 14 * k.val + j]? = (encodeSlot (pageBase p + BitVec.ofNat 8 k.val) t.slots[k])[j]? := by
  rw [encodeTelem, List.append_assoc, List.getElem?_append_right (by simp; omega),
    List.getElem?_append_left (by
      rw [flatMap_length_const _ 14 fun _ => encodeSlot_length _ _]
      simp; omega)]
  rw [show 4 + 14 * k.val + j - [BitVec.ofNat 8 (Config.minTelemLen + t.tail.length), Config.opcTelem, Config.subTelem, Config.errNone].length = 14 * k.val + j by simp; omega]
  rw [flatMap_getElem?_const _ 14 (fun _ => encodeSlot_length _ _) _ _ _ hj]
  simp

/-- The bytes from offset 228 on (R44). -/
theorem encodeTelem_tail (p : Page) (t : Telem) (i : Nat) : (encodeTelem p t)[228 + i]? = t.tail[i]? := by
  rw [encodeTelem, List.getElem?_append_right (by
    rw [List.length_append, flatMap_length_const _ 14 fun _ => encodeSlot_length _ _]; simp)]
  rw [List.length_append, flatMap_length_const _ 14 fun _ => encodeSlot_length _ _]
  simp

/-- An encoded telemetry response passes both checks (R101, R103). -/
theorem encodeTelem_accepted (p : Page) (t : Telem) : Machine.AcceptedFrame (encodeTelem p t) p := by
  refine ⟨by simp, by rw [encodeTelem_head _ _ 1 (by omega)]; rfl, by rw [encodeTelem_head _ _ 2 (by omega)]; rfl,
    by rw [encodeTelem_head _ _ 3 (by omega)]; rfl, fun k => ?_⟩
  have := encodeTelem_slot p t k 0 (by omega)
  simpa [encodeSlot] using this

/-- A frame's bytes inside slot `k` are those its operand fields spell again (Table F2). -/
theorem encodeSlot_slotOf (f : List Byte) (k : Nat) (hk : k < 16) (hf : 228 ≤ f.length) (id : Byte)
    (hid : f[4 + 14 * k]? = some id) (j : Nat) (hj : j < 14) :
    (encodeSlot id (slotOf f k))[j]? = f[4 + 14 * k + j]? := by
  have hb : ∀ i, i < 14 → f[4 + 14 * k + i]? = some (byteAt f (4 + 14 * k + i)) := fun i hi => by
    rw [byteAt, List.getD_eq_getElem?_getD, List.getElem?_eq_getElem (by omega)]; rfl
  by_cases h0 : j = 0
  · subst h0; simpa [encodeSlot] using hid.symm
  · rw [hb j hj]
    interval_cases j <;> simp_all [encodeSlot, slotOf, slotAt, s16At]

/-- A frame is spelled again by the fields read from it (Tables F1, F2). -/
theorem encodeTelem_telemOf {f : List Byte} {p : Page} (h : Machine.AcceptedFrame f p) (hf : isFrame f = true) :
    encodeTelem p (telemOf f) = f := by
  have hlen := h.1
  have hl : (telemOf f).tail.length = f.length - 228 := by simp [telemOf]
  apply List.ext_getElem?
  intro i
  by_cases h4 : i < 4
  · rw [encodeTelem_head _ _ _ h4]
    have h0 : f[0]? = some (BitVec.ofNat 8 (228 + (telemOf f).tail.length)) := by
      rw [hl, show 228 + (f.length - 228) = f.length by omega]
      match f, hf with
      | b :: f, hf =>
        simp only [isFrame, Bool.and_eq_true, beq_iff_eq] at hf
        simp only [List.getElem?_cons_zero, ← hf.2, BitVec.ofNat_toNat, BitVec.setWidth_eq]
    interval_cases i
    · simpa using h0.symm
    · simpa using h.2.1.symm
    · simpa using h.2.2.1.symm
    · simpa using h.2.2.2.1.symm
  · by_cases h228 : i < 228
    · obtain ⟨k, j, hk, hj, rfl⟩ : ∃ k j, k < 16 ∧ j < 14 ∧ i = 4 + 14 * k + j :=
        ⟨(i - 4) / 14, (i - 4) % 14, by omega, by omega, by omega⟩
      have := encodeTelem_slot p (telemOf f) ⟨k, hk⟩ j hj
      rw [this]
      have hs : (telemOf f).slots[(⟨k, hk⟩ : Fin 16)] = slotOf f k := by simp [telemOf]
      rw [hs]
      exact encodeSlot_slotOf f k hk hlen _ (h.2.2.2.2 ⟨k, hk⟩) j hj
    · obtain ⟨m, rfl⟩ : ∃ m, i = 228 + m := ⟨i - 228, by omega⟩
      rw [encodeTelem_tail]
      simp [telemOf]

/-- The fields read from an encoded telemetry response are its own (Tables F1, F2). -/
theorem telemOf_encodeTelem (p : Page) (t : Telem) : telemOf (encodeTelem p t) = t := by
  have hb : ∀ (k : Fin 16) (j : Nat), j < 14 →
      byteAt (encodeTelem p t) (4 + 14 * k.val + j) =
        (encodeSlot (pageBase p + BitVec.ofNat 8 k.val) t.slots[k]).getD j 0 := fun k j hj => by
    rw [byteAt, List.getD_eq_getElem?_getD, encodeTelem_slot p t k j hj, List.getD_eq_getElem?_getD]
  have hs : ∀ k : Fin 16, slotOf (encodeTelem p t) k.val = t.slots[k] := fun k => by
    have h1 := hb k 1 (by omega)
    have h2 := hb k 2 (by omega)
    have h3 := hb k 3 (by omega)
    have h4 := hb k 4 (by omega)
    have h5 := hb k 5 (by omega)
    have h6 := hb k 6 (by omega)
    have h7 := hb k 7 (by omega)
    have hi : (Vector.ofFn fun j : Fin 6 => byteAt (encodeTelem p t) (4 + 14 * k.val + 8 + j.val)) =
        t.slots[k].ignored := by
      apply Vector.ext
      intro j hj
      have := hb k (8 + j) (by omega)
      simp only [Vector.getElem_ofFn]
      rw [show 4 + 14 * k.val + 8 + j = 4 + 14 * k.val + (8 + j) by omega, this]
      interval_cases j <;> simp [encodeSlot]
    simp only [encodeSlot, List.cons_append, List.getD_cons_succ, List.getD_cons_zero] at h1 h2 h3 h4 h5 h6 h7
    simp only [slotOf, slotAt, s16At, Config.hdrBytes, Config.recBytes, Config.flagsAt, Config.rawAt,
      Config.offsetAt, Config.commandedAt, Config.ignoredAt, Nat.add_assoc, Nat.reduceAdd] at hi ⊢
    simp only [Nat.add_assoc] at h1 h2 h3 h4 h5 h6 h7
    rw [h1, h2, h3, h4, h5, h6, h7, hi, s16_lo_hi, s16_lo_hi, s16_lo_hi]
  have htail : (encodeTelem p t).drop 228 = t.tail := by
    apply List.ext_getElem?
    intro i
    rw [List.getElem?_drop, encodeTelem_tail]
  obtain ⟨slots, tail⟩ := t
  simp only [telemOf, htail, Telem.mk.injEq, and_true, Config.minTelemLen]
  apply Vector.ext
  intro k hk
  simpa using hs ⟨k, hk⟩

/-! ## The head of the stream -/

theorem decodeWire_cons (b : Byte) (bs : List Byte) : decodeWire (b :: bs) =
    if b = 0 then .ok .desync
    else if (b :: bs).length < b.toNat then .error .wireIncomplete
    else .ok (frameKind ((b :: bs).take b.toNat)) := rfl

/-- The head of the buffer in characters (R83, R84): the length byte is its first pair, the frame its first `2 * L`
characters. -/
theorem bufHead_pair (c1 c0 : HexDigit) (r : List HexDigit) : bufHead (c1 :: c0 :: r) =
    if hexByte c1 c0 = 0 then some .desync
    else if (c1 :: c0 :: r).length < 2 * (hexByte c1 c0).toNat then none
    else some (frameKind (hexDec ((c1 :: c0 :: r).take (2 * (hexByte c1 c0).toNat)))) := by
  have hlen : (hexByte c1 c0 :: hexDec r).length = (c1 :: c0 :: r).length / 2 := by
    rw [← hexDec_pair, hexDec_length]
  have hd : ∀ e : Except Reject Instr, decodeWire (hexDec (c1 :: c0 :: r)) = e →
      bufHead (c1 :: c0 :: r) = match e with | .ok i => some i | .error _ => none := by
    intro e he; rw [← he]; rfl
  rw [hd _ (by rw [hexDec_pair, decodeWire_cons]), hexDec_take, hexDec_pair]
  by_cases h0 : hexByte c1 c0 = 0
  · simp only [h0, if_true]
  · by_cases hl : (c1 :: c0 :: r).length < 2 * (hexByte c1 c0).toNat
    · rw [if_neg h0, if_neg h0, if_pos hl, if_pos (by omega)]
    · rw [if_neg h0, if_neg h0, if_neg hl, if_neg (by omega)]

/-- Fewer than two characters are no item (R83). -/
theorem bufHead_short {buf : List HexDigit} (h : buf.length < 2) : bufHead buf = none := by
  match buf, h with
  | [], _ => rfl
  | [c], _ => rfl

end Sys2Proof
end

