-- ==== Sys2Proof/Laws/Outer.lean ====
section
/-! SUPPORT. Laws/Outer.lean: the operations neither read nor write the fault set, the returned value and the host's
two queues, and what a run of steps does first. -/

namespace Sys2Proof.Machine

/-- The state with other values in the four fields no operation of the block reads: `fault` gates nothing (R176), and
`result`, `lineQueue` and `pending` are no state of the block. -/
def withOuter (f : FaultSet) (r : Result) (q : List (List Ch)) (p : List HostInput) (s : State) : State :=
  { s with fault := f, result := r, lineQueue := q, pending := p }

theorem emit_withOuter (f r q p e) (s : State) : emit e (withOuter f r q p s) = withOuter f r q p (emit e s) := rfl

theorem updateRecord_withOuter (f r q p id v raw off cmd) (s : State) :
    updateRecord id v raw off cmd (withOuter f r q p s) = withOuter f r q p (updateRecord id v raw off cmd s) := rfl

theorem unpackSlot_withOuter (f r q p fr k) (s : State) :
    unpackSlot fr (withOuter f r q p s) k = withOuter f r q p (unpackSlot fr s k) := by
  unfold unpackSlot
  by_cases h1 : fr.length < slotAt k + Config.recBytes
  · simp only [if_pos h1]
  · by_cases h2 : (byteAt fr (slotAt k + Config.idAt)).toNat < 32
    · simp only [if_neg h1, dif_pos h2]; rfl
    · simp only [if_neg h1, dif_neg h2]

theorem foldl_unpackSlot_withOuter (f r q p fr) (ks : List Nat) (s : State) :
    ks.foldl (unpackSlot fr) (withOuter f r q p s) = withOuter f r q p (ks.foldl (unpackSlot fr) s) := by
  induction ks generalizing s with
  | nil => rfl
  | cons k ks ih => rw [List.foldl_cons, List.foldl_cons, unpackSlot_withOuter, ih]

theorem dispatchFrame_withOuter (f r q p fr) (s : State) :
    dispatchFrame fr (withOuter f r q p s) = withOuter f r q p (dispatchFrame fr s) := by
  rcases dispatchFrame_cases fr s with h | h
  · rcases dispatchFrame_cases fr (withOuter f r q p s) with h' | h'
    · rw [h.2, h'.2]
    · rw [h.1] at h'; cases h'.1
  · rcases dispatchFrame_cases fr (withOuter f r q p s) with h' | h'
    · rw [h.1] at h'; cases h'.1
    · rw [h.2, h'.2, foldl_unpackSlot_withOuter, emit_withOuter]

theorem extractFrame_withOuter (f r q p) (s : State) :
    extractFrame (withOuter f r q p s) = withOuter f r q p (extractFrame s) := by
  have hb : (withOuter f r q p s).buf = s.buf := rfl
  rcases extractFrame_cases s with ⟨h, he⟩ | ⟨c1, c0, rest, hs, h⟩
  · rcases extractFrame_cases (withOuter f r q p s) with ⟨_, he'⟩ | ⟨c1, c0, rest, hs, _⟩
    · rw [he, he']
    · rw [hb] at hs; simp [hs] at h
  · rcases extractFrame_cases (withOuter f r q p s) with ⟨h', _⟩ | ⟨d1, d0, rest', hs', h'⟩
    · rw [hb] at h'; simp [hs] at h'
    · rw [hb, hs] at hs'
      cases hs'
      rw [hb] at h'
      obtain ⟨h0, he⟩ | ⟨h0, hl, he⟩ | ⟨h0, hl, he⟩ := h <;>
        obtain ⟨h0', he'⟩ | ⟨h0', hl', he'⟩ | ⟨h0', hl', he'⟩ := h'
      · rw [he, he']; rfl
      · exact absurd h0 h0'
      · exact absurd h0 h0'
      · exact absurd h0' h0
      · rw [he, he']
      · omega
      · exact absurd h0' h0
      · omega
      · rw [he, he', ← dispatchFrame_withOuter]
        rfl

/-! ## Runs -/

/-- A run goes on from the first step's next state. -/
theorem run_of_next {n : Nat} {s t : State} (h : step s = .next t) : run (n + 1) s = run n t := by
  simp only [run, h]

/-- A run of one step. -/
theorem run_one (s : State) : run 1 s = step s := by
  simp only [run]
  cases step s <;> rfl

/-- The run of the claims is the host's run of this machine. -/
theorem run_eq_core (n : Nat) (s : State) : run n s = Sys2Proof.core.run n s := by
  induction n generalizing s with
  | zero => rfl
  | succ n ih =>
    refine Eq.trans ?_ (Host.Core.run.eq_2 Sys2Proof.core s n).symm
    have h : Sys2Proof.core.step s = step s := rfl
    rw [h, run]
    cases step s with
    | next t => exact ih t
    | fault a => rfl
    | refused a => rfl

/-- A step is the meaning of the oldest pending transaction (R40). -/
theorem step_of_pending {s : State} {x : HostInput} {rest : List HostInput} (hp : s.pending = x :: rest) :
    step s = match decodeHost x with
      | .ok i => exec i { s with pending := rest }
      | .error why => .refused (.cannotBePresented why) := by
  unfold step fetch
  rw [hp]
  cases h : decodeHost x <;> simp [h]

/-- Every step is idle, a decoded transaction, or a refusal (R20, R40). -/
theorem step_cases (s : State) :
    (s.pending = [] ∧ step s = .next s) ∨
    (∃ x rest i, s.pending = x :: rest ∧ decodeHost x = .ok i ∧ step s = exec i { s with pending := rest }) ∨
    (∃ x rest why, s.pending = x :: rest ∧ decodeHost x = .error why ∧
      step s = .refused (.cannotBePresented why)) := by
  cases hp : s.pending with
  | nil => exact Or.inl ⟨rfl, by simp [step, fetch, hp]⟩
  | cons x rest =>
    have h := step_of_pending hp
    cases hd : decodeHost x with
    | ok i => exact Or.inr (Or.inl ⟨x, rest, i, rfl, hd, by rw [h, hd]⟩)
    | error why => exact Or.inr (Or.inr ⟨x, rest, why, rfl, hd, by rw [h, hd]⟩)

/-- The transactions the host can present (R67, Table F3). -/
theorem decodeHost_cases {x : HostInput} {i : Instr} (h : decodeHost x = .ok i) :
    (∃ chunk, i = .feed chunk) ∨ i = .bufReset ∨ (∃ id, i = .storeGet id) ∨ i = .setCont1 ∨ i = .setCont0 ∨
      i = .reqSingle ∨ (∃ dt, i = .pacerTick dt) ∨ (∃ p, i = .buildRead p) ∨ i = .buildStop ∨ i = .hwReset := by
  cases x with
  | reset => cases h; simp
  | command code operand =>
    unfold decodeHost decodeCommand noOperand oneBit oneByte at h
    simp only at h
    split at h <;> (repeat' split at h) <;> first | (cases h; simp) | cases h

end Sys2Proof.Machine
end

