-- ==== Sys2Proof/Laws/PerInstr.lean ====
section
/-! SUPPORT. Laws/PerInstr.lean: statements made per instruction. `WireItemNonEmpty`: an inbound item is never empty, so
each one taken from the buffer makes progress (R35, R62). -/

namespace Sys2Proof.Laws

/-- The wire code of a well-formed instruction has at least its Length byte. -/
def WireItemNonEmpty.Statement (i : Instr) : Prop :=
  WellFormed i = true → ∀ bytes, encode i = some (.wire bytes) → 1 ≤ bytes.length

/-- An instruction with another code, or none, has nothing to show. -/
theorem wireItem_vacuous {i : Instr} (h : ∀ bytes, encode i ≠ some (.wire bytes)) : WireItemNonEmpty.Statement i :=
  fun _ bytes e => absurd e (h bytes)

/-- An `OTHER_FRAME` has its Length byte (R54). -/
theorem wireItem_frame {f : List Byte} (h : isFrame f = true) : 1 ≤ f.length := by
  cases f with
  | nil => simp [isFrame] at h
  | cons b f => simp

theorem wireItem_telem (p : Page) (t : Telem) : 1 ≤ (encodeTelem p t).length := by
  simp [encodeTelem]

theorem WireItemNonEmpty.desync : WireItemNonEmpty.Statement .desync :=
  fun _ bytes e => by cases e; decide

theorem WireItemNonEmpty.telemPage0 (t : Telem) : WireItemNonEmpty.Statement (.telemPage0 t) :=
  fun _ bytes e => by cases e; exact wireItem_telem .page0 t

theorem WireItemNonEmpty.telemPage1 (t : Telem) : WireItemNonEmpty.Statement (.telemPage1 t) :=
  fun _ bytes e => by cases e; exact wireItem_telem .page1 t

theorem WireItemNonEmpty.otherFrame (frame : List Byte) : WireItemNonEmpty.Statement (.otherFrame frame) :=
  fun h bytes e => by
    cases e
    simp only [WellFormed, otherFrameWf, Bool.and_eq_true] at h
    exact wireItem_frame h.1

theorem WireItemNonEmpty.readReq (page : Page) : WireItemNonEmpty.Statement (.readReq page) :=
  wireItem_vacuous fun _ h => by simp [encode] at h

theorem WireItemNonEmpty.allStop : WireItemNonEmpty.Statement .allStop :=
  wireItem_vacuous fun _ h => by simp [encode] at h

theorem WireItemNonEmpty.feed (chunk : List Ch) : WireItemNonEmpty.Statement (.feed chunk) :=
  wireItem_vacuous fun _ h => by simp [encode] at h

theorem WireItemNonEmpty.bufReset : WireItemNonEmpty.Statement .bufReset :=
  wireItem_vacuous fun _ h => by simp [encode] at h

theorem WireItemNonEmpty.storeGet (id : Id) : WireItemNonEmpty.Statement (.storeGet id) :=
  wireItem_vacuous fun _ h => by simp [encode] at h

theorem WireItemNonEmpty.setCont1 : WireItemNonEmpty.Statement .setCont1 :=
  wireItem_vacuous fun _ h => by simp [encode] at h

theorem WireItemNonEmpty.setCont0 : WireItemNonEmpty.Statement .setCont0 :=
  wireItem_vacuous fun _ h => by simp [encode] at h

theorem WireItemNonEmpty.reqSingle : WireItemNonEmpty.Statement .reqSingle :=
  wireItem_vacuous fun _ h => by simp [encode] at h

theorem WireItemNonEmpty.pacerTick (dt : Nat) : WireItemNonEmpty.Statement (.pacerTick dt) :=
  wireItem_vacuous fun _ h => by simp [encode] at h

theorem WireItemNonEmpty.buildRead (page : Page) : WireItemNonEmpty.Statement (.buildRead page) :=
  wireItem_vacuous fun _ h => by simp [encode] at h

theorem WireItemNonEmpty.buildStop : WireItemNonEmpty.Statement .buildStop :=
  wireItem_vacuous fun _ h => by simp [encode] at h

theorem WireItemNonEmpty.hwReset : WireItemNonEmpty.Statement .hwReset :=
  wireItem_vacuous fun _ h => by simp [encode] at h

theorem WireItemNonEmpty.extract : WireItemNonEmpty.Statement .extract :=
  wireItem_vacuous fun _ h => by simp [encode] at h

theorem WireItemNonEmpty.decodeFrame (frame : List Byte) : WireItemNonEmpty.Statement (.decodeFrame frame) :=
  wireItem_vacuous fun _ h => by simp [encode] at h

theorem WireItemNonEmpty.storeInit : WireItemNonEmpty.Statement .storeInit :=
  wireItem_vacuous fun _ h => by simp [encode] at h

theorem WireItemNonEmpty.storeUpdate (id : Id) (v : Bool) (raw off cmd : BitVec 16) : WireItemNonEmpty.Statement (.storeUpdate id v raw off cmd) :=
  wireItem_vacuous fun _ h => by simp [encode] at h

theorem WireItemNonEmpty.issueRequest : WireItemNonEmpty.Statement .issueRequest :=
  wireItem_vacuous fun _ h => by simp [encode] at h

theorem WireItemNonEmpty.finalize (pre : List Byte) : WireItemNonEmpty.Statement (.finalize pre) :=
  wireItem_vacuous fun _ h => by simp [encode] at h

theorem WireItemNonEmpty.rxCheck (frame : List Byte) : WireItemNonEmpty.Statement (.rxCheck frame) :=
  wireItem_vacuous fun _ h => by simp [encode] at h

theorem WireItemNonEmpty.hostTick (dt : Nat) : WireItemNonEmpty.Statement (.hostTick dt) :=
  wireItem_vacuous fun _ h => by simp [encode] at h

theorem WireItemNonEmpty.feedBytes (f : List Byte) : WireItemNonEmpty.Statement (.feedBytes f) :=
  wireItem_vacuous fun _ h => by simp [encode] at h

theorem WireItemNonEmpty.feedChars (t : List Ch) : WireItemNonEmpty.Statement (.feedChars t) :=
  wireItem_vacuous fun _ h => by simp [encode] at h

theorem WireItemNonEmpty.drain : WireItemNonEmpty.Statement .drain :=
  wireItem_vacuous fun _ h => by simp [encode] at h

end Sys2Proof.Laws
end

