-- ==== Sys2Proof/Laws/Shapes.lean ====
section
/-! SUPPORT. Laws/Shapes.lean: what each transaction operation can change at all: the fields it may write, the events it
may add, and what it keeps of the identifiers, the buffer's capacity and the fault bits. -/

namespace Sys2Proof.Machine

/-- The identifiers of two stores agree (R13). -/
def SameIds (a b : Vector Record 32) : Prop := ∀ i : Id, a[i.val].identifier = b[i.val].identifier

theorem SameIds.refl (a : Vector Record 32) : SameIds a a := fun _ => rfl

theorem updateRecord_sameIds (id v raw off cmd) (s : State) :
    SameIds (updateRecord id v raw off cmd s).store s.store := fun i => by
  by_cases h : i = id
  · subst h; simp
  · rw [updateRecord_store_ne _ _ _ _ _ _ _ h]

theorem updateRecord_keepsIds (a : Vector Record 32) (id : Id) (v : Bool) (raw off cmd : BitVec 16) (s : State)
    (h : SameIds s.store a) : SameIds (updateRecord id v raw off cmd s).store a := fun i =>
  (updateRecord_sameIds id v raw off cmd s i).trans (h i)

theorem storeSlots_sameIds (p : Page) (t : Telem) (s : State) : SameIds (storeSlots p t s).store s.store :=
  storeSlots_inv (fun u => SameIds u.store s.store)
    (fun id v raw off cmd u h => updateRecord_keepsIds s.store id v raw off cmd u h) p t s (SameIds.refl _)

/-- `DECODE` writes records and emits page updates, nothing else (R100). -/
theorem dispatchFrame_shape (f : List Byte) (s : State) : ∃ st ev,
    dispatchFrame f s = { s with store := st, events := s.events ++ ev } ∧ SameIds st s.store ∧
      (ev = [] ∨ ∃ p, ev = [.pageUpdate p]) := by
  rcases dispatchFrame_cases f s with h | h
  · exact ⟨s.store, [], by simp [h.2], SameIds.refl _, Or.inl rfl⟩
  · refine ⟨((List.range 16).foldl (unpackSlot f) s).store, [.pageUpdate (pageOfBase (byteAt f 4))], ?_, ?_,
      Or.inr ⟨_, rfl⟩⟩
    · rw [h.2, foldl_unpackSlot_eq]; rfl
    · exact foldl_unpackSlot_inv (fun u => SameIds u.store s.store)
        (fun id v raw off cmd u h => updateRecord_keepsIds s.store id v raw off cmd u h) f _ s (SameIds.refl _)

/-- `EXTRACT` drops a prefix of the buffer, writes records, and emits at most a byte check and a page update (R83 to
R85). -/
theorem extractFrame_shape (s : State) : ∃ n st ev,
    extractFrame s = { s with buf := s.buf.drop n, store := st, events := s.events ++ ev } ∧ SameIds st s.store ∧
      (ev = [] ∨ (∃ ok, ev = [.rxCheck ok]) ∨ ∃ ok p, ev = [.rxCheck ok, .pageUpdate p]) := by
  rcases extractFrame_cases s with h | ⟨c1, c0, r, hb, h | h | h⟩
  · exact ⟨0, s.store, [], by simp [h.2], SameIds.refl _, Or.inl rfl⟩
  · exact ⟨s.buf.length, s.store, [], by simp [h.2, clearBuf], SameIds.refl _, Or.inl rfl⟩
  · exact ⟨0, s.store, [], by simp [h.2], SameIds.refl _, Or.inl rfl⟩
  · rw [h.2.2]
    generalize hexDec (s.buf.take (2 * (hexByte c1 c0).toNat)) = f
    obtain ⟨st, ev, he, hi, hev⟩ :=
      dispatchFrame_shape f (emit (.rxCheck (byteCheck f)) (consume (2 * (hexByte c1 c0).toNat) s))
    refine ⟨2 * (hexByte c1 c0).toNat, st, .rxCheck (byteCheck f) :: ev, ?_, hi, Or.inr ?_⟩
    · rw [he]; simp [emit, consume]
    · rcases hev with rfl | ⟨p, rfl⟩
      · exact Or.inl ⟨_, rfl⟩
      · exact Or.inr ⟨_, _, rfl⟩

/-- `FEED` writes the buffer, the store and the fault set; it keeps the buffer within its capacity and every fault bit
that was set (R11, R80 to R82, R176). -/
theorem feedChunk_shape (chunk : List Ch) (s : State) : ∃ b st fs ev,
    feedChunk chunk s = { s with buf := b, store := st, fault := fs, events := s.events ++ ev } ∧ SameIds st s.store ∧
      (ev = [] ∨ (∃ ok, ev = [.rxCheck ok]) ∨ ∃ ok p, ev = [.rxCheck ok, .pageUpdate p]) ∧
      (s.BufFits → ∀ cap, Config.bufCap = some cap → b.length ≤ cap) ∧
      ∀ k : FaultName, s.fault.has k = true → fs.has k = true := by
  rcases feedChunk_cases chunk s with h | ⟨ds, _, _, h⟩ | ⟨ds, hd, hc, h⟩
  · exact ⟨s.buf, s.store, s.fault.insert .hexFault, [], by rw [h.2]; simp [raise], SameIds.refl _, Or.inl rfl,
      fun h => h, fun k hk => by cases k <;> simp_all [FaultSet.has, FaultSet.insert]⟩
  · exact ⟨s.buf, s.store, s.fault.insert .bufOverflow, [], by rw [h]; simp [raise], SameIds.refl _, Or.inl rfl,
      fun h => h, fun k hk => by cases k <;> simp_all [FaultSet.has, FaultSet.insert]⟩
  · obtain ⟨n, st, ev, he, hi, hev⟩ := extractFrame_shape (appendBuf ds s)
    refine ⟨(s.buf ++ ds).drop n, st, s.fault, ev, ?_, hi, hev, fun _ cap hcap => ?_, fun _ h => h⟩
    · rw [h, he]; rfl
    · have hl : ds.length = chunk.length := by rw [← toHexDigits_some hd, List.length_map]
      have : ¬ cap < s.buf.length + chunk.length := fun hlt => by
        have := (exceedsCap_iff _).2 ⟨cap, hcap, hlt⟩
        simp [hc] at this
      simp only [List.length_drop, List.length_append]
      omega

/-- `FEED` does the same whatever the fault set, the returned value and the host's queues hold, but to them (R176). -/
theorem feedChunk_withOuter (f r q p chunk) (s : State) : ∃ f',
    feedChunk chunk (withOuter f r q p s) = withOuter f' r q p (feedChunk chunk s) ∧
      (f = s.fault → f' = (feedChunk chunk s).fault) := by
  have hb : (withOuter f r q p s).buf = s.buf := rfl
  rcases feedChunk_cases chunk s with h | ⟨ds, hd, hc, h⟩ | ⟨ds, hd, hc, h⟩ <;>
    rcases feedChunk_cases chunk (withOuter f r q p s) with h' | ⟨ds', hd', hc', h'⟩ | ⟨ds', hd', hc', h'⟩
  · exact ⟨f.insert .hexFault, by rw [h.2, h'.2]; rfl, fun e => by rw [h.2, e]; rfl⟩
  · rw [h.1] at hd'; cases hd'
  · rw [h.1] at hd'; cases hd'
  · rw [hd] at h'; cases h'.1
  · exact ⟨f.insert .bufOverflow, by rw [h, h']; rfl, fun e => by rw [h, e]; rfl⟩
  · rw [hb, hc] at hc'; cases hc'
  · rw [hd] at h'; cases h'.1
  · rw [hb, hc] at hc'; cases hc'
  · rw [hd] at hd'
    cases hd'
    have he := extractFrame_withOuter f r q p (appendBuf ds s)
    obtain ⟨n, st, ev, hs, _⟩ := extractFrame_shape (appendBuf ds s)
    have hf : (extractFrame (appendBuf ds s)).fault = s.fault := by rw [hs]; rfl
    exact ⟨f, by rw [h, h', ← he]; rfl, fun e => by rw [h, hf, e]⟩

/-- The catch-up loop writes the timer and the next page, and issues alternating requests (R134, R135). -/
theorem catchUp_shape (fuel : Nat) (s : State) : ∃ n e,
    catchUp fuel s = { s with
      elapsed := e, nextPage := flipPage^[n] s.nextPage,
      events := s.events ++ (requestsFrom s.nextPage n).map .tx } := by
  induction fuel generalizing s with
  | zero => exact ⟨0, s.elapsed, by simp [catchUp, requestsFrom]⟩
  | succ fuel ih =>
    rw [catchUp_succ]
    split
    · obtain ⟨n, e, h⟩ := ih { issue s with elapsed := s.elapsed - 200 }
      exact ⟨n + 1, e, by rw [h]; simp [issue, emit, requestsFrom, readRequest]⟩
    · exact ⟨0, s.elapsed, by simp [requestsFrom]⟩

/-- A tick writes the timer and the next page, issues alternating requests, and ends below the interval if it began
there (R135 to R137). -/
theorem tick_shape (dt : Nat) (s : State) : ∃ n e,
    tick dt s = { s with
      elapsed := e, nextPage := flipPage^[n] s.nextPage,
      events := s.events ++ (requestsFrom s.nextPage n).map .tx } ∧ (s.TimerBelow → e < 200) := by
  rcases tick_cases dt s with h | h
  · exact ⟨0, s.elapsed, by simp [h.2, requestsFrom], fun h => h⟩
  · obtain ⟨n, e, h2⟩ := catchUp_shape (s.elapsed + dt) { s with elapsed := s.elapsed + dt }
    refine ⟨n, e, by rw [h.2, h2], fun _ => ?_⟩
    have := catchUp_elapsed_lt (s.elapsed + dt) { s with elapsed := s.elapsed + dt } (Nat.le_refl _)
    rw [h2] at this
    exact this

/-- A single request writes the next page and issues at most one request (R133). -/
theorem requestOnce_shape (s : State) : ∃ n,
    requestOnce s = { s with
      nextPage := flipPage^[n] s.nextPage, events := s.events ++ (requestsFrom s.nextPage n).map .tx } := by
  rcases requestOnce_cases s with h | h
  · exact ⟨0, by simp [h.2, requestsFrom]⟩
  · exact ⟨1, by simp [h.2, issue, emit, requestsFrom, readRequest]⟩

theorem requestsIn_map_tx (l : List (List Byte)) : requestsIn (l.map .tx) = l := by
  induction l with
  | nil => rfl
  | cons a l ih => simp [requestsIn]

end Sys2Proof.Machine
end

