-- ==== Sys2Proof/Tests/Slice0.lean ====
section
/-! SUPPORT. Tests/Slice0.lean: the model's own tests. Every expected value is written out from the spec: the vectors of
`spec/95_test_vectors.md` (their ids in the docstrings), Tables F1 to F3, or hand calculation from a rule. A theorem
`witness_<Name>` gives inputs that meet all hypotheses of the obligation `<Name>` together. -/

set_option maxRecDepth 20000

namespace Sys2Proof.Tests

open Sys2Proof Sys2Proof.Machine

/-! ## Helpers -/

/-- The next state, if the step answers one. -/
def nextOf : Host.Outcome State Fault Refusal → Option State
  | .next s => some s
  | .fault _ => none
  | .refused _ => none

/-- The fault, if the step stops with one. -/
def faultOf : Host.Outcome State Fault Refusal → Option Fault
  | .fault f => some f
  | .next _ => none
  | .refused _ => none

/-- Reset with these characters, spelled as hex digits, in the buffer. -/
def withBuf (ds : List HexDigit) : State := { State.reset with buf := ds }

/-- Reset with this poll state. -/
def withPoll (cont : Bool) (nextPage : Page) (elapsed : Nat) : State :=
  { State.reset with cont := cont, nextPage := nextPage, elapsed := elapsed }

/-- Reset with these transactions issued. -/
def withPending (xs : List HostInput) : State := { State.reset with pending := xs }

/-- The poll state. -/
def poll (s : State) : Bool × Page × Nat := (s.cont, s.nextPage, s.elapsed)

/-- What a `FEED` from reset with this buffer leaves, read through `view`. -/
def afterFeed {α : Type} (ds : List HexDigit) (chunk : List Ch) (view : State → α) : Option α :=
  (nextOf (exec (.feed chunk) (withBuf ds))).map view

/-- What an instruction leaves, read through `view`. -/
def after {α : Type} (i : Instr) (s : State) (view : State → α) : Option α := (nextOf (exec i s)).map view

/-- Is the event an `rx_check`? Its value depends on the open parameter `Cks`. -/
def isRxCheck : Event → Bool
  | .rxCheck _ => true
  | _ => false

/-- A record's validity and its three values. -/
def fields (r : Record) : Bool × Int × Int × Int := (r.isValid, r.raw.toInt, r.offset.toInt, r.commanded.toInt)

/-- The zero slot. -/
def zeroSlot : Slot := ⟨0, 0, 0, 0, Vector.replicate 6 0⟩

/-- A telemetry response with this tail. -/
def telemWithTail (tail : List Byte) : Telem := ⟨Vector.replicate 16 zeroSlot, tail⟩

/-- `SMALL` of the vectors: `05 01 00 00 04`. -/
def small : List Byte := [0x05, 0x01, 0x00, 0x00, 0x04]

/-- The 16 slots of `T0` (§2.2). -/
def slotsT0 : List (List Byte) := [
  [0x00, 0x80, 0x01, 0x00, 0x00, 0x00, 0xEC, 0xFF], [0x01, 0x80, 0x65, 0x00, 0xF6, 0xFF, 0xEF, 0xFF],
  [0x02, 0x80, 0xC9, 0x00, 0xEC, 0xFF, 0xF2, 0xFF], [0x03, 0x7F, 0x2D, 0x01, 0xE2, 0xFF, 0xF5, 0xFF],
  [0x04, 0x80, 0x91, 0x01, 0xD8, 0xFF, 0xF8, 0xFF], [0x05, 0x80, 0xF5, 0x01, 0xCE, 0xFF, 0xFB, 0xFF],
  [0x06, 0x80, 0x59, 0x02, 0xC4, 0xFF, 0xFE, 0xFF], [0x07, 0x7F, 0xBD, 0x02, 0xBA, 0xFF, 0x01, 0x00],
  [0x08, 0x80, 0x21, 0x03, 0xB0, 0xFF, 0x04, 0x00], [0x09, 0x80, 0x85, 0x03, 0xA6, 0xFF, 0x07, 0x00],
  [0x0A, 0x80, 0xE9, 0x03, 0x9C, 0xFF, 0x0A, 0x00], [0x0B, 0x7F, 0x4D, 0x04, 0x92, 0xFF, 0x0D, 0x00],
  [0x0C, 0x80, 0xB1, 0x04, 0x88, 0xFF, 0x10, 0x00], [0x0D, 0x80, 0x15, 0x05, 0x7E, 0xFF, 0x13, 0x00],
  [0x0E, 0x80, 0x79, 0x05, 0x74, 0xFF, 0x16, 0x00], [0x0F, 0x00, 0xFF, 0x7F, 0x00, 0x80, 0xFF, 0xFF]]

/-- The six ignored bytes of every slot of the vectors. -/
def ignoredBytes : List Byte := [0xA1, 0xB2, 0xC3, 0xD4, 0xE5, 0xF6]

/-- A telemetry frame of the vectors from its header, its slots and the bytes after slot 15. -/
def frameOf (header : List Byte) (slots : List (List Byte)) (tail : List Byte) : List Byte :=
  header ++ (slots.flatMap fun sl => sl ++ ignoredBytes) ++ tail

/-- `T0`: 229 bytes (§2.2). -/
def frameT0 : List Byte := frameOf [0xE5, 0xE4, 0x01, 0x00] slotsT0 [0xBC]

/-- `T0` with another last byte: `Tbad` (§2.2). -/
def frameTbad : List Byte := frameOf [0xE5, 0xE4, 0x01, 0x00] slotsT0 [0x43]

/-- `T0m`: 228 bytes, the 229th dropped (§2.2). -/
def frameT0m : List Byte := frameOf [0xE4, 0xE4, 0x01, 0x00] slotsT0 []

/-- A page-1 response: the identifiers 0x10 to 0x1F, the values of `T0`. -/
def framePage1 : List Byte :=
  frameOf [0xE5, 0xE4, 0x01, 0x00] (slotsT0.mapIdx fun k sl => BitVec.ofNat 8 (0x10 + k) :: sl.drop 1) [0xBC]

/-- `Tmixed`: slot 5 carries identifier 0x15 (§2.2). -/
def frameTmixed : List Byte :=
  frameOf [0xE5, 0xE4, 0x01, 0x00] (slotsT0.set 5 [0x15, 0x80, 0xF5, 0x01, 0xCE, 0xFF, 0xFB, 0xFF]) [0xAC]

/-! ## WellFormed: one ill-formed term for each check -/

theorem test_wf_telem_page0_refuses_28_tail_bytes :
    WellFormed (.telemPage0 (telemWithTail (List.replicate 28 0))) = false := by decide
theorem test_wf_telem_page1_refuses_28_tail_bytes :
    WellFormed (.telemPage1 (telemWithTail (List.replicate 28 0))) = false := by decide
theorem test_wf_telem_page0_accepts_27_tail_bytes :
    WellFormed (.telemPage0 (telemWithTail (List.replicate 27 0))) = true := by decide
theorem test_wf_other_frame_refuses_empty : WellFormed (.otherFrame []) = false := by decide
theorem test_wf_other_frame_refuses_wrong_length : WellFormed (.otherFrame [0x03, 0x01]) = false := by decide
theorem test_wf_other_frame_refuses_telemetry : WellFormed (.otherFrame frameT0) = false := by decide
theorem test_wf_decode_refuses_zero_length : WellFormed (.decodeFrame [0x00]) = false := by decide
theorem test_wf_decode_refuses_wrong_length : WellFormed (.decodeFrame [0x02]) = false := by decide
theorem test_wf_finalize_refuses_empty : WellFormed (.finalize []) = false := by decide
theorem test_wf_rx_check_refuses_empty : WellFormed (.rxCheck []) = false := by decide

/-! ## Decoding: words written out from the spec's encodings -/

/-- Table X1 (b): 00. -/
theorem test_decode_desync : decode (.wire [0x00, 0xE5]) = .ok .desync := by decide
/-- Tables F1, F2 on `T0`: slot 5 is Id 05, Flags 80, Raw F5 01, Offset CE FF, Commanded FB FF. -/
theorem test_decode_telem_page0 :
    (match decode (.wire frameT0) with
      | .ok (.telemPage0 t) => some (t.slots[5].flags, t.slots[5].raw, t.slots[5].offset, t.slots[5].commanded, t.tail)
      | _ => none) = some (0x80, 0x01F5, 0xFFCE, 0xFFFB, [0xBC]) := by decide
/-- Tables F1, F2: slot 15 of a page-1 response, its first and last ignored bytes. -/
theorem test_decode_telem_page1 :
    (match decode (.wire framePage1) with
      | .ok (.telemPage1 t) => some (t.slots[15].raw, t.slots[15].ignored[0], t.slots[15].ignored[5])
      | _ => none) = some (0x7FFF, 0xA1, 0xF6) := by decide
/-- Table F1: the five bytes of `SMALL`; what follows is not read. -/
theorem test_decode_other_frame : decode (.wire (small ++ [0xFF])) = .ok (.otherFrame small) := by decide
/-- R60: 07 01 00 05 pp E0 FF. -/
theorem test_decode_read_request :
    decode (.outbound [0x07, 0x01, 0x00, 0x05, 0x00, 0xE0, 0xFF]) = .ok (.readReq .page0) ∧
    decode (.outbound [0x07, 0x01, 0x00, 0x05, 0x10, 0xE0, 0xFF]) = .ok (.readReq .page1) := by decide
/-- R61: the 70 bytes are an open parameter. -/
theorem test_decode_all_stop : decode (.outbound Config.allStopPre) = .ok .allStop := by
  have length : Config.allStopPre.length = 70 := by simp [Config.allStopPre]
  have other : ∀ p, Config.allStopPre ≠ readReqPre p := fun p e => by
    rw [e] at length
    simp [readReqPre] at length
  simp [decode, decodeOutbound, other]
theorem test_decode_feed : decode (.host (.command 0x1 [0x30, 0x37])) = .ok (.feed [0x30, 0x37]) := by decide
theorem test_decode_buf_reset : decode (.host (.command 0x2 [])) = .ok .bufReset := by decide
theorem test_decode_store_get : decode (.host (.command 0x3 [0x1F])) = .ok (.storeGet 31) := by decide
theorem test_decode_set_cont :
    decode (.host (.command 0x4 [0x01])) = .ok .setCont1 ∧
    decode (.host (.command 0x4 [0x00])) = .ok .setCont0 := by decide
theorem test_decode_req_single : decode (.host (.command 0x5 [])) = .ok .reqSingle := by decide
theorem test_decode_pacer_tick : decode (.host (.command 0x6 [0xE8, 0x03])) = .ok (.pacerTick 1000) := by decide
theorem test_decode_build_read :
    decode (.host (.command 0x7 [0x00])) = .ok (.buildRead .page0) ∧
    decode (.host (.command 0x7 [0x01])) = .ok (.buildRead .page1) := by decide
theorem test_decode_build_stop : decode (.host (.command 0x8 [])) = .ok .buildStop := by decide
theorem test_decode_reset : decode (.host .reset) = .ok .hwReset := by decide
/-- U16, U17 and the operand shapes: refused by name. -/
theorem test_decode_refuses_by_name :
    decode (.host (.command 0x0 [])) = .error (.unassignedCode 0x0) ∧
    decode (.host (.command 0x9 [])) = .error (.unassignedCode 0x9) ∧
    decode (.host (.command 0x3 [0x20])) = .error (.idOutOfRange 0x20) ∧
    decode (.host (.command 0x4 [0x02])) = .error (.notABit 0x02) ∧
    decode (.host (.command 0x2 [0x00])) = .error (.operandLength 0x2) ∧
    decode (.wire [0x02]) = .error .wireIncomplete := by decide
/-- The words of the opcode table (its numbering: byte 0 the most significant in the wire rows). -/
theorem test_table_words :
    decodeTableWord 8 0 = some .desync ∧ decodeTableWord 8 1 = some (.feed []) ∧
    decodeTableWord 8 2 = some .bufReset ∧ decodeTableWord 8 3 = some (.storeGet 0) ∧
    decodeTableWord 8 4 = some .setCont0 ∧ decodeTableWord 8 5 = some .reqSingle ∧
    decodeTableWord 8 6 = some (.pacerTick 0) ∧ decodeTableWord 8 7 = some (.buildRead .page0) ∧
    decodeTableWord 8 8 = some .buildStop ∧ decodeTableWord 32 0x07010005 = some (.readReq .page0) := by decide
/-- 0x00E4010000 and 0x00E4010010 of the table. -/
theorem test_table_telemetry :
    (match decodeTableWord 32 0xE4010000 with | some (.telemPage0 _) => true | _ => false) = true ∧
    (match decodeTableWord 40 0xE4010010 with | some (.telemPage1 _) => true | _ => false) = true := by decide

/-! ## Values (§2.1) -/

/-- S1 and the derived values. -/
theorem test_s16_values :
    (s16 0x34 0x12).toInt = 4660 ∧ (s16 0xFF 0xFF).toInt = -1 ∧ (s16 0x00 0x80).toInt = -32768 ∧
    (s16 0xFF 0x7F).toInt = 32767 ∧ (s16 0x01 0x80).toInt = -32767 ∧ (s16 0x00 0xFF).toInt = -256 ∧
    (s16 0x80 0x00).toInt = 128 := by decide
/-- `HexByte`: the first character is the high nibble; both letter cases are accepted. -/
theorem test_hex_byte :
    hexByte ⟨0x31, by decide⟩ ⟨0x30, by decide⟩ = 0x10 ∧ hexByte ⟨0x65, by decide⟩ ⟨0x34, by decide⟩ = 0xE4 ∧
    hexByte ⟨0x46, by decide⟩ ⟨0x66, by decide⟩ = 0xFF := by decide
/-- `HexEnc(07 E4 0A)` is "07E40A". -/
theorem test_hex_enc : hexText [0x07, 0xE4, 0x0A] = [0x30, 0x37, 0x45, 0x34, 0x30, 0x41] := by decide
/-- The characters just outside the alphabet. -/
theorem test_hex_alphabet_edges :
    [0x2F, 0x3A, 0x40, 0x47, 0x60, 0x67].map isHexDigit = List.replicate 6 false ∧
    [0x30, 0x39, 0x41, 0x46, 0x61, 0x66].map isHexDigit = List.replicate 6 true := by decide

/-! ## Assembler (§2.3) -/

/-- A7: "0101" yields one frame; "01" stays. -/
theorem test_feed_takes_one_frame :
    afterFeed [] (hexText [0x01, 0x01]) (fun s => (s.buf, s.events.map isRxCheck)) =
      some (hexEnc [0x01], [true]) := by decide
/-- A13: "07G1" is refused. -/
theorem test_feed_refuses_non_hex :
    afterFeed [] [0x30, 0x37, 0x47, 0x31] (fun s => (s.buf, s.events, s.fault)) = some ([], [], ⟨true, false⟩) := by
  decide
/-- A15, A16: with `BUF_CAP = 510`, 511 characters exceed and 510 do not; no count exceeds an unbounded buffer. -/
theorem test_capacity_edges :
    exceedsCapOf (some 510) 511 = true ∧ exceedsCapOf (some 510) 510 = false ∧ exceedsCapOf none 511 = false := by
  decide
/-- A8: a complete frame left in the buffer is taken by an empty `FEED`. -/
theorem test_drain_takes_left_frame :
    after .drain (withBuf (hexEnc [0x01])) (fun s => (s.buf, s.events.map isRxCheck)) = some ([], [true]) := by decide
/-- A12. -/
theorem test_buf_reset : after .bufReset (withBuf (hexEnc [0xE5, 0xE4])) (·.buf) = some [] := by decide
/-- R84's example: "0201AB" leaves "AB". -/
theorem test_extract_leaves_remainder :
    after .extract (withBuf (hexEnc [0x02, 0x01, 0xAB])) (fun s => (s.buf, s.events.map isRxCheck)) =
      some (hexEnc [0xAB], [true]) := by decide
/-- A10: the bytes after a leading 00 are lost. -/
theorem test_desync_empties : after .desync (withBuf (hexEnc [0x00, 0x01, 0x01])) (·.buf) = some [] := by decide
/-- R68: "0701" one character at a time. -/
theorem test_feed_chars : after (.feedChars [0x30, 0x37, 0x30, 0x31]) State.reset (·.buf) =
    some (hexEnc [0x07, 0x01]) := by decide

/-! ## Decoder (§2.4) -/

/-- DV1, ST2, ST3, ST4: four records of `T0`. -/
theorem test_feed_bytes_unpacks_T0 :
    after (.feedBytes frameT0) State.reset (fun s => [0, 3, 5, 15].map fun i : Id => fields s.store[i]) =
      some [(true, 1, 0, -20), (false, 301, -30, -11), (true, 501, -50, -5), (false, 32767, -32768, -1)] := by decide
/-- DV1: one `page_update(0)`, after the `rx_check`. -/
theorem test_feed_bytes_announces_T0 :
    after (.feedBytes frameT0) State.reset (fun s => (s.events.map isRxCheck, s.events.getLast?)) =
      some ([true, false], some (.pageUpdate .page0)) := by decide
/-- DV3: 228 bytes pass. -/
theorem test_decode_frame_228_bytes :
    after (.decodeFrame frameT0m) State.reset (fun s => (fields s.store[9], s.events)) =
      some ((true, 901, -90, 7), [.pageUpdate .page0]) := by decide
/-- The page-1 records of a page-1 response. -/
theorem test_telem_page1_unpacks :
    (match decode (.wire framePage1) with
      | .ok i => after i (withBuf (hexEnc framePage1)) (fun s => (fields s.store[0x1F], s.buf, s.events.getLast?))
      | .error _ => none) = some ((false, 32767, -32768, -1), [], some (.pageUpdate .page1)) := by decide
/-- The page-0 records of `T0` from its operands. -/
theorem test_telem_page0_unpacks :
    (match decode (.wire frameT0) with
      | .ok i => after i (withBuf (hexEnc frameT0)) (fun s => (fields s.store[2], s.buf, s.events.length))
      | .error _ => none) = some ((true, 201, -20, -14), [], 2) := by decide
/-- DV9: mixed identifiers are discarded in full. -/
theorem test_other_frame_discards_mixed :
    after (.otherFrame frameTmixed) (withBuf (hexEnc frameTmixed)) (fun s => (s.buf, s.events.map isRxCheck)) =
      some ([], [true]) := by decide
/-- DV9 through `DECODE`: no event. -/
theorem test_decode_frame_discards_mixed :
    after (.decodeFrame frameTmixed) State.reset (·.events) = some [] := by decide

/-! ## Store (§2.5) -/

/-- R122's example: `STORE_UPDATE(0x05, 1, 300, -20, 7)` then `GET 0x05` returns `(0x05, 1, 300, -20, 7, 320)`. -/
theorem test_store_update_then_get :
    ((nextOf (exec (.storeUpdate 5 true 300 (-20) 7) State.reset)).bind fun s => after (.storeGet 5) s (·.result)) =
      some (.record ⟨5, true, 300, -20, 7, 320⟩) := by decide
/-- ST4: calibrated exceeds 16 bits. -/
theorem test_store_get_calibrated_extreme :
    calibrated ⟨15, false, 0x7FFF, 0x8000, 0xFFFF⟩ = 65535 ∧
    calibrated ⟨31, true, 0x8000, 0x7FFF, 0⟩ = -65535 := by decide
theorem test_store_update_leaves_identifier :
    after (.storeUpdate 31 false 1 2 3) State.reset (fun s => (s.store[31].identifier, fields s.store[31])) =
      some (31, false, 1, 2, 3) := by decide
theorem test_store_init_invalidates :
    ((nextOf (exec (.storeUpdate 7 true 1 2 3) State.reset)).bind fun s => after .storeInit s (·.store[7].isValid)) =
      some false := by decide

/-! ## Pacer (§2.6) -/

/-- K1. -/
theorem test_set_cont_1_enters :
    after .setCont1 (withPoll false .page0 0) (fun s => (poll s, s.events)) =
      some ((true, .page0, 0), [.modeChange true]) := by decide
/-- K2: no event; the timer is zeroed all the same. -/
theorem test_set_cont_1_again :
    after .setCont1 (withPoll true .page0 150) (fun s => (poll s, s.events)) = some ((true, .page0, 0), []) := by decide
/-- K3: `elapsed` is kept. -/
theorem test_set_cont_0_leaves :
    after .setCont0 (withPoll true .page1 150) (fun s => (poll s, s.events)) =
      some ((false, .page1, 150), [.modeChange false]) := by decide
/-- K4. -/
theorem test_set_cont_0_idle :
    after .setCont0 (withPoll false .page1 150) (fun s => (poll s, s.events)) = some ((false, .page1, 150), []) := by
  decide
/-- K6. -/
theorem test_req_single_flips :
    after .reqSingle (withPoll false .page1 0) (fun s => (poll s, s.events.length)) =
      some ((false, .page0, 0), 1) := by decide
/-- K7. -/
theorem test_req_single_while_continuous :
    after .reqSingle (withPoll true .page0 10) (fun s => (poll s, s.events)) = some ((true, .page0, 10), []) := by
  decide
/-- K9, K10: the interval is reached at 200, not at 199. -/
theorem test_tick_edges :
    after (.pacerTick 49) (withPoll true .page0 150) (fun s => (poll s, s.events.length)) =
      some ((true, .page0, 199), 0) ∧
    after (.pacerTick 50) (withPoll true .page0 150) (fun s => (poll s, s.events.length)) =
      some ((true, .page1, 0), 1) := by decide
/-- K13: five requests; the odd count flips the page. -/
theorem test_tick_catches_up :
    after (.pacerTick 1000) (withPoll true .page0 0) (fun s => (poll s, s.events.length)) =
      some ((true, .page1, 0), 5) := by decide
theorem test_issue_request :
    after .issueRequest (withPoll true .page1 5) (fun s => (poll s, s.events.length)) =
      some ((true, .page0, 5), 1) := by decide
/-- R140: the oldest line is fed before the tick. -/
theorem test_host_tick :
    after (.hostTick 50) { withPoll true .page0 150 with lineQueue := [hexText [0x07, 0x01], [0x30]] }
      (fun s => (s.buf, s.lineQueue, s.elapsed, s.events.length)) =
      some (hexEnc [0x07, 0x01], [[0x30]], 0, 1) := by decide

/-! ## Encoder and checksum (§2.7), under the candidate of R160, which the model does not assume -/

/-- The exclusive-or of all bytes. -/
def xorAll (x : List Byte) : Byte := x.foldl (· ^^^ ·) 0

/-- E1, E2, E4. -/
theorem test_finalize_candidate :
    finalizeWith id xorAll [0x07, 0x01, 0x00, 0x05, 0x00, 0xE0, 0xFF] = [0x07, 0x01, 0x00, 0x05, 0x00, 0xE0, 0xE3] ∧
    finalizeWith id xorAll [0x07, 0x01, 0x00, 0x05, 0x10, 0xE0, 0xFF] = [0x07, 0x01, 0x00, 0x05, 0x10, 0xE0, 0xF3] ∧
    finalizeWith id xorAll [0xFF] = [0x00] := by decide
/-- E6, E7, E8. -/
theorem test_byte_check_candidate :
    byteCheckWith xorAll [0x07, 0x01, 0x00, 0x05, 0x00, 0xE0, 0xFF] = false ∧
    byteCheckWith xorAll frameT0 = true ∧ byteCheckWith xorAll frameTbad = false := by decide
/-- E1 for any parameters: BUILD_READ is the finalized R60 frame, and no event. -/
theorem test_build_read :
    exec (.buildRead .page0) State.reset =
      .next { State.reset with result := .bytes (finalizeFrame [0x07, 0x01, 0x00, 0x05, 0x00, 0xE0, 0xFF]) } := rfl
theorem test_read_req :
    exec (.readReq .page1) State.reset =
      .next { State.reset with result := .bytes (finalizeFrame [0x07, 0x01, 0x00, 0x05, 0x10, 0xE0, 0xFF]) } := rfl
/-- E3. -/
theorem test_build_stop :
    exec .buildStop State.reset = .next { State.reset with result := .bytes (finalizeFrame Config.allStopPre) } := rfl
theorem test_all_stop :
    exec .allStop State.reset = .next { State.reset with result := .bytes (finalizeFrame Config.allStopPre) } := rfl
/-- E4 for any parameters. -/
theorem test_finalize_one_byte :
    exec (.finalize [0xFF]) State.reset = .next { State.reset with result := .bytes [Config.cks []] } := rfl
theorem test_finalize_empty_faults : faultOf (exec (.finalize []) State.reset) = some .operandDomain := by decide
/-- RX_CHECK emits no event itself. -/
theorem test_rx_check : after (.rxCheck [0x01]) State.reset (·.events) = some [] := by decide

/-! ## Reset and the step -/

theorem test_hw_reset :
    after .hwReset { withPoll true .page1 7 with buf := hexEnc [0xE5], fault := ⟨true, true⟩ }
      (fun s => (s.buf, poll s, s.fault, s.events)) =
      some ([], (false, .page0, 0), ⟨false, false⟩, []) := by decide
/-- A table word runs as the first instruction after reset. -/
theorem test_fetch_word_runs :
    (nextOf (step (State.reset.withFetchWord 8 5))).map (fun s => (s.nextPage, s.events.length)) =
      some (.page1, 1) := by decide
theorem test_fetch_word_telemetry :
    (nextOf (step (State.reset.withFetchWord 32 0xE4010010))).map (fun s => (fields s.store[16], s.events.length)) =
      some ((false, 0, 0, 0), 2) := by decide

/-! ## Witnesses: inputs that meet all hypotheses of a statement together -/

/-- A buffer as long as the largest frame fits whatever `BUF_CAP` is (D7). -/
theorem fits_any_cap {n : Nat} (h : n ≤ 510) : ∀ cap, Config.bufCap = some cap → n ≤ cap :=
  fun _ hc => le_trans h (minBufCap_le hc)

theorem witness_DecodeAfterEncode :
    WellFormed (.storeGet 31) = true ∧ encode (.storeGet 31) = some (.host (.command 3 [0x1F])) := by decide
theorem witness_WireDecodeIgnoresWhatFollows :
    WellFormed (.otherFrame small) = true ∧ encode (.otherFrame small) = some (.wire small) := by decide
theorem witness_EncodeAfterWireDecode :
    decodeWire [0x00] = .ok .desync ∧ decodeWire small = .ok (.otherFrame small) := by decide
/-- Codes 0, 9 and 15, and identifier 0x20. -/
theorem witness_UnpresentableInputsRefused :
    ((0x0 : BitVec 4).toNat = 0 ∨ 9 ≤ (0x0 : BitVec 4).toNat) ∧
    ((0x9 : BitVec 4).toNat = 0 ∨ 9 ≤ (0x9 : BitVec 4).toNat) ∧
    ((0xF : BitVec 4).toNat = 0 ∨ 9 ≤ (0xF : BitVec 4).toNat) ∧ 0x1F < (0x20 : Byte).toNat ∧
    (withPending [.command 0x9 []]).pending = .command 0x9 [] :: [] ∧
    (withPending [.command 3 [0x20]]).pending = .command 3 [0x20] :: [] := by decide
theorem witness_StepRunsDecodedTransaction :
    (withPending [.command 2 []]).pending = .command 2 [] :: [] ∧ decodeHost (.command 2 []) = .ok .bufReset := by
  decide
theorem witness_IdleBlockHoldsState : State.reset.pending = [] := by decide
theorem witness_ExtractRunsItemAtHead :
    bufHead (withBuf (hexEnc [0x00])).buf = some .desync ∧
    bufHead (withBuf (hexEnc small)).buf = some (.otherFrame small) ∧ bufHead State.reset.buf = none ∧
    bufHead (withBuf (hexEnc [0x02])).buf = none := by decide
theorem witness_StepRunsItemAtHead :
    State.BufFits { withBuf (hexEnc small) with pending := [.command 1 []] } ∧
    ({ withBuf (hexEnc small) with pending := [.command 1 []] } : State).pending = .command 1 [] :: [] ∧
    bufHead (hexEnc small) = some (.otherFrame small) := by
  refine ⟨?_, by decide, by decide⟩
  exact fits_any_cap (by decide)
/-- The shortest and the longest tail. -/
theorem witness_TelemetryUpdatesItsPage :
    (telemWithTail []).tail.length ≤ 27 ∧ (telemWithTail (List.replicate 27 0)).tail.length ≤ 27 := by decide
theorem witness_OtherFrameDiscarded :
    isFrame [0x01] = true ∧ isTelemetry [0x01] = false ∧ isFrame frameTmixed = true ∧
    isTelemetry frameTmixed = false := by decide
theorem witness_FeedChecksThenAppends :
    ∃ c ∈ ([0x30, 0x37, 0x47, 0x31] : List Ch), isHexDigit c = false := by decide
theorem witness_FeedAppendsThenExtracts :
    ∀ cap, Config.bufCap = some cap → State.reset.buf.length + (hexEnc small).length ≤ cap :=
  fits_any_cap (by decide)
/-- Fewer than 2 characters, and a leading 00. -/
theorem witness_ExtractWaitsOrDesyncs :
    (withBuf [hiDigit 0]).buf.length < 2 ∧
    (withBuf (hexEnc [0x00, 0x01])).buf = hiDigit 0 :: loDigit 0 :: hexEnc [0x01] ∧
    hexByte (hiDigit 0) (loDigit 0) = 0 := by decide
/-- Length 2 with 2 characters waits, with 4 and with 6 is taken. -/
theorem witness_ExtractDispatchesOneFrame :
    (withBuf (hexEnc [0x02])).buf = hiDigit 2 :: loDigit 2 :: [] ∧
    (withBuf (hexEnc [0x02, 0x01])).buf = hiDigit 2 :: loDigit 2 :: hexEnc [0x01] ∧
    hexByte (hiDigit 2) (loDigit 2) ≠ 0 ∧
    (hexEnc [0x02]).length < 2 * (hexByte (hiDigit 2) (loDigit 2)).toNat ∧
    2 * (hexByte (hiDigit 2) (loDigit 2)).toNat ≤ (hexEnc [0x02, 0x01]).length := by decide
theorem witness_FeedWaitsWhileIncomplete :
    State.reset.buf ++ hexEnc [0x07, 0x01] = hiDigit 7 :: loDigit 7 :: hexEnc [0x01] ∧
    (State.reset.buf ++ hexEnc [0x07, 0x01]).length < 2 * (hexByte (hiDigit 7) (loDigit 7)).toNat := by decide
theorem witness_OneFramePerFeed : (nextOf (exec (.feed (hexText small)) State.reset)).isSome = true := by decide
/-- `SMALL` in three fragments. -/
theorem witness_FragmentationInvariance :
    State.reset.buf = [] ∧
    ([[0x30], [0x35, 0x30, 0x31, 0x30], [0x30, 0x30, 0x30, 0x30, 0x34]] : List (List Ch)).flatten =
      (hexEnc small).map HexDigit.code ∧
    isFrame (hexDec (hexEnc small)) = true ∧ (hexEnc small).length = 2 * (hexDec (hexEnc small)).length := by decide
theorem witness_RecoveryAfterDesync :
    State.reset.buf ++ hexEnc [0x00, 0x05] = hiDigit 0 :: loDigit 0 :: hexEnc [0x05] ∧
    hexByte (hiDigit 0) (loDigit 0) = 0 ∧
    ∀ cap, Config.bufCap = some cap → State.reset.buf.length + (hexEnc [0x00, 0x05]).length ≤ cap :=
  ⟨by decide, by decide, fits_any_cap (by decide)⟩
theorem witness_AcceptedFrameUnpacked :
    AcceptedFrame frameT0 .page0 ∧ AcceptedFrame frameT0m .page0 ∧ AcceptedFrame framePage1 .page1 := by
  unfold AcceptedFrame
  decide
theorem witness_OtherFrameChangesNothing :
    ¬ AcceptedFrame frameTmixed .page0 ∧ ¬ AcceptedFrame frameTmixed .page1 := by
  unfold AcceptedFrame
  decide
/-- `T0` and `Tbad` differ in an ignored byte; `T0m` has the least length. -/
theorem witness_IgnoredBytesHaveNoEffect :
    228 ≤ frameT0.length ∧ 228 ≤ frameT0m.length ∧
    (∀ i, 1 ≤ i → i ≤ 3 → frameT0[i]? = frameT0m[i]?) ∧
    ∀ k : Fin 16, frameT0[4 + 14 * k.val]? = frameT0m[4 + 14 * k.val]? ∧
      (byteAt frameT0 (4 + 14 * k.val + 1)).getLsbD 7 = (byteAt frameT0m (4 + 14 * k.val + 1)).getLsbD 7 ∧
      ∀ j, 2 ≤ j → j ≤ 7 → frameT0[4 + 14 * k.val + j]? = frameT0m[4 + 14 * k.val + j]? := by
  refine ⟨by decide, by decide, fun i h1 h3 => ?_, fun k => ⟨?_, ?_, fun j h2 h7 => ?_⟩⟩
  · interval_cases i <;> decide
  · revert k; decide
  · revert k; decide
  · interval_cases j <;> (revert k; decide)
theorem witness_TelemetryEndToEnd :
    State.reset.buf = [] ∧ isFrame frameT0 = true ∧ AcceptedFrame frameT0 .page0 ∧ isFrame framePage1 = true ∧
    AcceptedFrame framePage1 .page1 :=
  ⟨by decide, by decide, witness_AcceptedFrameUnpacked.1, by decide, witness_AcceptedFrameUnpacked.2.2⟩
theorem witness_ContinuousTickArithmetic :
    (withPoll true .page0 199).cont = true ∧ (withPoll true .page0 199).elapsed < 200 := by decide
theorem witness_IdleTickDoesNothing : (withPoll false .page0 0).cont = false := by decide
theorem witness_FourTicksOneRequest :
    (withPoll true .page0 0).cont = true ∧ (withPoll true .page0 0).elapsed = 0 ∧
    (withPoll true .page0 0).nextPage = .page0 ∧
    ({ withPoll true .page0 0 with pending := List.replicate 4 (.command 6 [0x32]) } : State).pending =
      List.replicate 4 (.command 6 [0x32]) ++ [] := by decide
theorem witness_RequestsAlternate :
    (withPending [.command 5 []]).pending = .command 5 [] :: [] ∧ HostInput.command 5 [] ≠ .reset ∧
    (nextOf (step (withPending [.command 5 []]))).isSome = true := by decide
theorem witness_ReadRequestBuilt :
    (0x00 : Byte) = (match Page.page0 with | .page0 => 0x00 | .page1 => 0x10) ∧
    (0x10 : Byte) = (match Page.page1 with | .page0 => 0x00 | .page1 => 0x10) := by decide
theorem witness_FinalizeComposition : 1 ≤ ([0xFF] : List Byte).length := by decide
theorem witness_ByteCheckAcceptsFinalized : 1 ≤ ([0xFF] : List Byte).length := by decide
theorem witness_OutsideDomainFaults :
    (isFrame [] = false ∨ isTelemetry [] = true) ∧ (isFrame frameT0 = false ∨ isTelemetry frameT0 = true) ∧
    27 < (telemWithTail (List.replicate 28 0)).tail.length := by decide
theorem witness_HostTickFeedsThenTicks :
    State.reset.lineQueue = [] ∧
    ({ State.reset with lineQueue := [[0x30]] } : State).lineQueue = [0x30] :: [] := by decide
theorem witness_DrainAttemptsExtraction : State.reset.BufFits := fits_any_cap (by decide)
theorem witness_PseudoOperationRunsExpansion :
    expansion [] .drain = some [.command 1 []] ∧ expansion [[0x30]] (.hostTick 0) =
      some [.command 1 [0x30], .command 6 []] ∧ expansion [] (.feedChars [0x30]) = some [.command 1 [0x30]] ∧
    expansion [] (.feedBytes [0x07]) = some [.command 1 [0x30, 0x37]] := by decide
theorem witness_StoreUpdateOverwritesRecord : (0 : Id) ≠ 31 := by decide
/-- Reset meets the invariant; its own step and a `BUF_RESET` keep it. -/
theorem witness_InvariantKeptByStep :
    State.reset.Inv ∧ (nextOf (step State.reset)).isSome = true ∧
    (nextOf (exec .bufReset State.reset)).isSome = true := by
  refine ⟨⟨fits_any_cap (by decide), fun i => ?_, Nat.succ_pos 199⟩, by decide, by decide⟩
  revert i
  decide
theorem witness_InvariantKeptByExec :
    State.reset.Inv ∧ (nextOf (exec (.pacerTick 1000) State.reset)).isSome = true :=
  ⟨witness_InvariantKeptByStep.1, by decide⟩
theorem witness_WrittenByColumn :
    (withPending [.command 4 [1]]).pending = .command 4 [1] :: [] ∧ decodeHost (.command 4 [1]) = .ok .setCont1 ∧
    (nextOf (step (withPending [.command 4 [1]]))).map (·.cont) = some true := by decide
theorem witness_EventsNeverLost :
    (nextOf (step (withPending [.command 5 []]))).map (·.events.length) = some 1 := by decide
theorem witness_FaultBitsSticky :
    Instr.feed [0x47] ≠ .hwReset ∧
    (nextOf (exec (.feed [0x47]) State.reset)).map (·.fault) = some ⟨true, false⟩ := by decide

end Sys2Proof.Tests
end

section
/-! Scope rules (`spec/00_scope.md`, R7): the hex text is spelled so that it reads back, and a 16-bit field is
little-endian two's complement. -/

namespace Sys2Proof

/-! ## The two halves of a line's text -/

/-- R7: each byte is spelled by the pair of digits that reads back as it, so the text reads back pair by pair. -/
@[simp] theorem hexDec_hexEnc (f : List Byte) : hexDec (hexEnc f) = f := by
  induction f with
  | nil => rfl
  | cons b f ih => rw [hexEnc, hexDec_pair, hexByte_digits, ih]

/-! ## The value of a 16-bit field -/

/-- R33: the low byte comes first; as an unsigned number the word is `v` of R7. -/
theorem s16_toNat (lo hi : Byte) : (s16 lo hi).toNat = lo.toNat + 256 * hi.toNat := by
  rw [s16, BitVec.toNat_append, ← Nat.shiftLeft_add_eq_or_of_lt lo.isLt, Nat.shiftLeft_eq]
  omega

/-- R7: the sign bit of the word is set exactly when its unsigned value is above 32767. -/
theorem s16_toInt (lo hi : Byte) : (s16 lo hi).toInt =
    if lo.toNat + 256 * hi.toNat ≤ 32767 then ((lo.toNat + 256 * hi.toNat : Nat) : Int)
    else ((lo.toNat + 256 * hi.toNat : Nat) : Int) - 65536 := by
  rw [BitVec.toInt_eq_toNat_cond, s16_toNat]
  by_cases nonneg : lo.toNat + 256 * hi.toNat ≤ 32767
  · rw [if_pos nonneg, if_pos (by omega)]
  · rw [if_neg nonneg, if_neg (by omega)]
    norm_num

/-! ## The obligations -/

/-- Settles O6, by induction on the byte sequence (`hexDec_hexEnc`). -/
theorem hexDecAfterHexEnc : Obligations.HexDecAfterHexEnc := hexDec_hexEnc

/-- Settles O7, from the unsigned value of the field and the cases of its sign (`s16_toInt`). -/
theorem sixteenBitFieldValue : Obligations.SixteenBitFieldValue := s16_toInt

end Sys2Proof
end

section
/-! The block's invariant (`spec/10_state.md`, R11, R13, R137): it holds at reset, each operation of the block keeps it,
and so does every instruction and every step. -/

namespace Sys2Proof.Machine

/-! ## The invariant from the fields it reads -/

/-- A state meets the invariant when its buffer is no longer, its identifiers are the same and its timer is below the
interval. -/
theorem State.Inv.of_fields {s t : State} (hs : s.Inv) (hbuf : t.buf.length ≤ s.buf.length)
    (hids : SameIds t.store s.store) (htimer : t.TimerBelow) : t.Inv := by
  obtain ⟨hfits, hfixed, _⟩ := hs
  exact ⟨fun cap hcap => hbuf.trans (hfits cap hcap), fun i => (hids i).trans (hfixed i), htimer⟩

theorem State.Inv.timerBelow {s : State} (hs : s.Inv) : s.TimerBelow := hs.2.2

/-- The values of Table Z1 that the invariant reads: nothing buffered, the initial store, the timer at 0. -/
theorem State.Inv.of_resetFields {s : State} (hbuf : s.buf = []) (hstore : s.store = initStore)
    (helapsed : s.elapsed = 0) : s.Inv := by
  refine ⟨fun cap _ => ?_, fun i => ?_, ?_⟩
  · simp [hbuf]
  · have hrec : s.store[i] = initRecord i := by rw [hstore]; exact initStore_get i
    rw [hrec]; rfl
  · simp [State.TimerBelow, helapsed]

theorem reset_inv : State.reset.Inv := .of_resetFields rfl rfl rfl

/-! ## Outputs, buffer and store -/

/-- The returned value is no part of the invariant. -/
theorem returns_inv {s : State} (r : Result) (hs : s.Inv) : (returns r s).Inv := hs

theorem emit_inv {s : State} (e : Event) (hs : s.Inv) : (emit e s).Inv := hs

theorem clearBuf_inv {s : State} (hs : s.Inv) : (clearBuf s).Inv :=
  hs.of_fields (Nat.zero_le _) (SameIds.refl _) hs.timerBelow

/-- What is consumed only shortens the buffer. -/
theorem takeFrame_inv {s : State} (frame : List Byte) (hs : s.Inv) : (takeFrame frame s).Inv :=
  hs.of_fields (List.drop_sublist _ _).length_le (SameIds.refl _) hs.timerBelow

theorem updateRecord_inv {s : State} (id : Id) (v : Bool) (raw off cmd : BitVec 16) (hs : s.Inv) :
    (updateRecord id v raw off cmd s).Inv :=
  hs.of_fields le_rfl (updateRecord_sameIds id v raw off cmd s) hs.timerBelow

theorem initializeStore_inv {s : State} (hs : s.Inv) : (initializeStore s).Inv := by
  obtain ⟨hfits, _, htimer⟩ := hs
  exact ⟨hfits, reset_inv.2.1, htimer⟩

theorem acceptTelem_inv {s : State} (p : Page) (t : Telem) (hs : s.Inv) : (acceptTelem p t s).Inv :=
  emit_inv _ (storeSlots_inv State.Inv (fun id v raw off cmd _ h => updateRecord_inv id v raw off cmd h) p t _
    (takeFrame_inv _ hs))

/-! ## The assembler and the decoder -/

theorem dispatchFrame_inv {s : State} (f : List Byte) (hs : s.Inv) : (dispatchFrame f s).Inv := by
  obtain ⟨st, ev, heq, hids, _⟩ := dispatchFrame_shape f s
  rw [heq]
  exact hs.of_fields le_rfl hids hs.timerBelow

theorem extractFrame_inv {s : State} (hs : s.Inv) : (extractFrame s).Inv := by
  obtain ⟨n, st, ev, heq, hids, _⟩ := extractFrame_shape s
  rw [heq]
  exact hs.of_fields (List.drop_sublist _ _).length_le hids hs.timerBelow

/-- R82: the capacity check comes before the append, so the longer buffer still fits. -/
theorem feedChunk_inv {s : State} (chunk : List Ch) (hs : s.Inv) : (feedChunk chunk s).Inv := by
  obtain ⟨b, st, fs, ev, heq, hids, _, hfits, _⟩ := feedChunk_shape chunk s
  obtain ⟨hfitsBefore, hfixed, htimer⟩ := hs
  rw [heq]
  exact ⟨hfits hfitsBefore, fun i => (hids i).trans (hfixed i), htimer⟩

/-! ## The pacer -/

theorem issue_inv {s : State} (hs : s.Inv) : (issue s).Inv := hs

theorem requestOnce_inv {s : State} (hs : s.Inv) : (requestOnce s).Inv := by
  obtain ⟨n, heq⟩ := requestOnce_shape s
  rw [heq]
  exact hs

/-- R137: the catch-up loop brings the timer below the interval again. -/
theorem tick_inv {s : State} (dt : Nat) (hs : s.Inv) : (tick dt s).Inv := by
  obtain ⟨n, e, heq, hbelow⟩ := tick_shape dt s
  rw [heq]
  exact hs.of_fields le_rfl (SameIds.refl _) (hbelow hs.timerBelow)

/-- `SET_CONT(1)` enters continuous mode, zeroes the timer and emits at most a mode change (R131). -/
theorem enterContinuous_shape (s : State) : ∃ ev,
    enterContinuous s = { s with cont := true, elapsed := 0, events := s.events ++ ev } ∧
      (ev = [] ∨ ev = [.modeChange true]) := by
  cases hc : s.cont with
  | true => exact ⟨[], by simp [enterContinuous, hc], Or.inl rfl⟩
  | false => exact ⟨[.modeChange true], by simp [enterContinuous, hc, emit], Or.inr rfl⟩

/-- `SET_CONT(0)` leaves continuous mode and emits at most a mode change (R132). -/
theorem leaveContinuous_shape (s : State) : ∃ ev,
    leaveContinuous s = { s with cont := false, events := s.events ++ ev } ∧
      (ev = [] ∨ ev = [.modeChange false]) := by
  cases hc : s.cont with
  | true => exact ⟨[.modeChange false], by simp [leaveContinuous, hc, emit], Or.inr rfl⟩
  | false => exact ⟨[], by simp [leaveContinuous, hc], Or.inl rfl⟩

theorem enterContinuous_inv {s : State} (hs : s.Inv) : (enterContinuous s).Inv := by
  obtain ⟨ev, heq, _⟩ := enterContinuous_shape s
  rw [heq]
  exact hs.of_fields le_rfl (SameIds.refl _) (Nat.succ_pos 199)

theorem leaveContinuous_inv {s : State} (hs : s.Inv) : (leaveContinuous s).Inv := by
  obtain ⟨ev, heq, _⟩ := leaveContinuous_shape s
  rw [heq]
  exact hs

/-! ## Reset and the pseudo-operations -/

/-- From any state, not only from one that meets the invariant (R190). -/
theorem hardReset_inv (s : State) : (hardReset s).Inv := .of_resetFields rfl rfl rfl

theorem feedTransaction_inv {s : State} (chunk : List Ch) (hs : s.Inv) : (feedTransaction chunk s).Inv :=
  returns_inv _ (feedChunk_inv chunk hs)

theorem tickTransaction_inv {s : State} (dt : Nat) (hs : s.Inv) : (tickTransaction dt s).Inv :=
  returns_inv _ (tick_inv dt hs)

/-- R68: `FEED_CHARS` keeps the invariant character by character. -/
theorem foldl_feedTransaction_inv {s : State} (cs : List Ch) (hs : s.Inv) :
    (cs.foldl (fun s c => feedTransaction [c] s) s).Inv := by
  induction cs generalizing s with
  | nil => exact hs
  | cons c cs ih => exact ih (feedTransaction_inv [c] hs)

/-! ## Instructions and steps -/

/-- The next state, if the outcome is one, meets the invariant. -/
def AnswersInv (o : Host.Outcome State Fault Refusal) : Prop := ∀ t, o = .next t → t.Inv

theorem answersInv_next {u : State} (hu : u.Inv) : AnswersInv (.next u) := fun _ h => by
  cases h
  exact hu

/-- A meaning that stops outside its operand domain (log 16). -/
theorem answersInv_guarded {b : Bool} {u : State} {r : Fault} (hu : u.Inv) :
    AnswersInv (if b then .next u else .fault r) := by
  cases b with
  | true => exact answersInv_next hu
  | false => exact fun _ h => by cases h

/-- R140: the oldest line, if there is one, is fed before the pacer ticks. -/
theorem execHostTick_answersInv {s : State} (dt : Nat) (hs : s.Inv) : AnswersInv (execHostTick dt s) := by
  unfold execHostTick
  split
  · exact answersInv_next (tickTransaction_inv dt hs)
  · next l q _ =>
    have hq : State.Inv { s with lineQueue := q } := hs
    exact answersInv_next (tickTransaction_inv dt (feedTransaction_inv l hq))

/-- Every row of the opcode table keeps the invariant. -/
theorem exec_answersInv (i : Instr) {s : State} (hs : s.Inv) : AnswersInv (exec i s) := by
  cases i with
  | desync => exact answersInv_next (returns_inv _ (clearBuf_inv hs))
  | telemPage0 t => exact answersInv_guarded (returns_inv _ (acceptTelem_inv .page0 t hs))
  | telemPage1 t => exact answersInv_guarded (returns_inv _ (acceptTelem_inv .page1 t hs))
  | otherFrame frame => exact answersInv_guarded (returns_inv _ (takeFrame_inv frame hs))
  | readReq page => exact answersInv_next (returns_inv _ hs)
  | allStop => exact answersInv_next (returns_inv _ hs)
  | feed chunk => exact answersInv_next (returns_inv _ (feedChunk_inv chunk hs))
  | bufReset => exact answersInv_next (returns_inv _ (clearBuf_inv hs))
  | storeGet id => exact answersInv_next (returns_inv _ hs)
  | setCont1 => exact answersInv_next (returns_inv _ (enterContinuous_inv hs))
  | setCont0 => exact answersInv_next (returns_inv _ (leaveContinuous_inv hs))
  | reqSingle => exact answersInv_next (returns_inv _ (requestOnce_inv hs))
  | pacerTick dt => exact answersInv_next (returns_inv _ (tick_inv dt hs))
  | buildRead page => exact answersInv_next (returns_inv _ hs)
  | buildStop => exact answersInv_next (returns_inv _ hs)
  | hwReset => exact answersInv_next (returns_inv _ (hardReset_inv s))
  | extract => exact answersInv_next (returns_inv _ (extractFrame_inv hs))
  | decodeFrame frame => exact answersInv_next (returns_inv _ (dispatchFrame_inv frame hs))
  | storeInit => exact answersInv_next (returns_inv _ (initializeStore_inv hs))
  | storeUpdate id v raw off cmd => exact answersInv_next (returns_inv _ (updateRecord_inv id v raw off cmd hs))
  | issueRequest => exact answersInv_next (returns_inv _ (issue_inv hs))
  | finalize pre => exact answersInv_guarded (returns_inv _ hs)
  | rxCheck frame => exact answersInv_guarded (returns_inv _ hs)
  | hostTick dt => exact execHostTick_answersInv dt hs
  | feedBytes f => exact answersInv_next (feedTransaction_inv (hexText f) hs)
  | feedChars cs => exact answersInv_next (foldl_feedTransaction_inv cs hs)
  | drain => exact answersInv_next (feedTransaction_inv [] hs)

/-- The host's sequence is no part of the invariant, so a step keeps it as its transaction does (R40). -/
theorem step_answersInv {s : State} (hs : s.Inv) : AnswersInv (step s) := by
  rcases step_cases s with ⟨_, heq⟩ | ⟨x, rest, i, _, _, heq⟩ | ⟨x, rest, why, _, _, heq⟩ <;> rw [heq]
  · exact answersInv_next hs
  · have hrest : State.Inv { s with pending := rest } := hs
    exact exec_answersInv i hrest
  · exact fun _ h => by cases h

/-! ## The obligations -/

/-- Settles O53, from the values of Table Z1 (`reset_inv`). -/
theorem invariantAtReset : Obligations.InvariantAtReset := reset_inv

/-- Settles O55, by cases on the instruction: each operation it is made of keeps the invariant. -/
theorem invariantKeptByExec : Obligations.InvariantKeptByExec := fun i _ t hs h => exec_answersInv i hs t h

/-- Settles O54, from what a step can be and the invariant of every instruction. -/
theorem invariantKeptByStep : Obligations.InvariantKeptByStep := fun _ t hs h => step_answersInv hs t h

end Sys2Proof.Machine
end

section
/-! What the transactions of the host leave (Table F3): the components each may write (`spec/10_state.md`, R22), and
the requests it issues (R18). -/

namespace Sys2Proof.Machine

/-! ## What a host transaction answers -/

/-- The step of a transaction that decodes is its meaning, with the host's sequence one shorter (R40). -/
theorem step_of_decoded {s : State} {x : HostInput} {rest : List HostInput} {i : Instr} (hp : s.pending = x :: rest)
    (hd : decodeHost x = .ok i) : step s = exec i { s with pending := rest } := by
  rw [step_of_pending hp, hd]

/-- The reset instruction is presented by the reset input alone (Table F3). -/
theorem eq_reset_of_decodeHost {x : HostInput} (h : decodeHost x = .ok .hwReset) : x = .reset := by
  cases x with
  | reset => rfl
  | command code operand =>
    unfold decodeHost decodeCommand noOperand oneBit oneByte at h
    simp only at h
    split at h <;> (repeat' split at h) <;> cases h

/-- The next state of each transaction the host can present (Table F3). -/
inductive HostEffect (s : State) : Instr → State → Prop where
  | feed (chunk : List Ch) : HostEffect s (.feed chunk) (returns .nothing (feedChunk chunk s))
  | bufReset : HostEffect s .bufReset (returns .nothing (clearBuf s))
  | storeGet (id : Id) : HostEffect s (.storeGet id) (returns (.record (recordView s.store[id])) s)
  | setCont1 : HostEffect s .setCont1 (returns .nothing (enterContinuous s))
  | setCont0 : HostEffect s .setCont0 (returns .nothing (leaveContinuous s))
  | reqSingle : HostEffect s .reqSingle (returns .nothing (requestOnce s))
  | pacerTick (dt : Nat) : HostEffect s (.pacerTick dt) (returns .nothing (tick dt s))
  | buildRead (p : Page) : HostEffect s (.buildRead p) (returns (.bytes (readRequest p)) s)
  | buildStop : HostEffect s .buildStop (returns (.bytes stopCommand) s)
  | hwReset : HostEffect s .hwReset (returns .nothing (hardReset s))

/-- What decodes from a host input answers by its own operation, and by nothing else. -/
theorem hostEffect_of_exec {x : HostInput} {i : Instr} {s t : State} (hd : decodeHost x = .ok i)
    (h : exec i s = .next t) : HostEffect s i t := by
  rcases decodeHost_cases hd with ⟨chunk, rfl⟩ | rfl | ⟨id, rfl⟩ | rfl | rfl | rfl | ⟨dt, rfl⟩ | ⟨p, rfl⟩ | rfl | rfl
  all_goals
    cases h
    constructor

/-- The same of a step: the operation runs on the state with the host's sequence one shorter (R40). -/
theorem hostEffect_of_step {s t : State} {x : HostInput} {rest : List HostInput} {i : Instr}
    (hp : s.pending = x :: rest) (hd : decodeHost x = .ok i) (h : step s = .next t) :
    HostEffect { s with pending := rest } i t :=
  hostEffect_of_exec hd ((step_of_decoded hp hd).symm.trans h)

/-! ## The "written by" column -/

/-- The column of `spec/10_state.md` §6: each component of the block that `i` changed from `s` to `t` is one whose row
names `i` (R22). -/
def WrittenByColumn (i : Instr) (s t : State) : Prop :=
  (t.buf ≠ s.buf → (∃ chunk, i = .feed chunk) ∨ i = .bufReset ∨ i = .hwReset) ∧
  (t.store ≠ s.store → (∃ chunk, i = .feed chunk) ∨ i = .hwReset) ∧
  (t.cont ≠ s.cont → i = .setCont1 ∨ i = .setCont0 ∨ i = .hwReset) ∧
  (t.nextPage ≠ s.nextPage → i = .reqSingle ∨ (∃ dt, i = .pacerTick dt) ∨ i = .hwReset) ∧
  (t.elapsed ≠ s.elapsed → i = .setCont1 ∨ (∃ dt, i = .pacerTick dt) ∨ i = .hwReset) ∧
  (t.fault ≠ s.fault → (∃ chunk, i = .feed chunk) ∨ i = .hwReset)

/-- A query changes no component (R124, R150, R152). -/
theorem writtenByColumn_returns (i : Instr) (r : Result) (s : State) : WrittenByColumn i s (returns r s) := by
  simp [WrittenByColumn]

/-- Each transaction by the shape of its operation: what the shape does not write is as before, and what it writes is in
its column. -/
theorem HostEffect.writtenByColumn {i : Instr} {s t : State} (h : HostEffect s i t) : WrittenByColumn i s t := by
  cases h with
  | feed chunk =>
    obtain ⟨b, st, fs, ev, heq, _⟩ := feedChunk_shape chunk s
    simp [WrittenByColumn, heq]
  | bufReset => simp [WrittenByColumn]
  | storeGet id => exact writtenByColumn_returns _ _ s
  | setCont1 =>
    obtain ⟨ev, heq, _⟩ := enterContinuous_shape s
    simp [WrittenByColumn, heq]
  | setCont0 =>
    obtain ⟨ev, heq, _⟩ := leaveContinuous_shape s
    simp [WrittenByColumn, heq]
  | reqSingle =>
    obtain ⟨n, heq⟩ := requestOnce_shape s
    simp [WrittenByColumn, heq]
  | pacerTick dt =>
    obtain ⟨n, e, heq, _⟩ := tick_shape dt s
    simp [WrittenByColumn, heq]
  | buildRead p => exact writtenByColumn_returns _ _ s
  | buildStop => exact writtenByColumn_returns _ _ s
  | hwReset => simp [WrittenByColumn]

/-! ## Requests -/

/-- From `s` to `t` the block issues requests that begin with the next page of `s` and alternate, and the next page of
`t` is the one after the last (R18). -/
def RequestsContinue (s t : State) : Prop :=
  ∃ new n, t.events = s.events ++ new ∧ requestsIn new = requestsFrom s.nextPage n ∧
    t.nextPage = flipPage^[n] s.nextPage

/-- No request, and the next page stays. -/
theorem requestsContinue_of_quiet {s t : State} {new : List Event} (hev : t.events = s.events ++ new)
    (hnone : requestsIn new = []) (hpage : t.nextPage = s.nextPage) : RequestsContinue s t :=
  ⟨new, 0, hev, hnone, hpage⟩

/-- No event at all, and the next page stays. -/
theorem requestsContinue_of_silent {s t : State} (hev : t.events = s.events) (hpage : t.nextPage = s.nextPage) :
    RequestsContinue s t :=
  requestsContinue_of_quiet (by rw [hev, List.append_nil]) rfl hpage

/-- `n` requests, one page flip each (R134). -/
theorem requestsContinue_of_requests {s t : State} (n : Nat)
    (hev : t.events = s.events ++ (requestsFrom s.nextPage n).map .tx)
    (hpage : t.nextPage = flipPage^[n] s.nextPage) : RequestsContinue s t :=
  ⟨_, n, hev, requestsIn_map_tx _, hpage⟩

/-- Only the pacer's two operations issue requests, and they flip the page at each; the rest emit other events or none.
The reset sets the page itself (R190). -/
theorem HostEffect.requestsContinue {i : Instr} {s t : State} (h : HostEffect s i t) (hi : i ≠ .hwReset) :
    RequestsContinue s t := by
  cases h with
  | feed chunk =>
    obtain ⟨b, st, fs, ev, heq, _, hev, _⟩ := feedChunk_shape chunk s
    have hnone : requestsIn ev = [] := by rcases hev with rfl | ⟨ok, rfl⟩ | ⟨ok, p, rfl⟩ <;> rfl
    exact requestsContinue_of_quiet (by rw [heq]; rfl) hnone (by rw [heq]; rfl)
  | bufReset => exact requestsContinue_of_silent rfl rfl
  | storeGet id => exact requestsContinue_of_silent rfl rfl
  | setCont1 =>
    obtain ⟨ev, heq, hev⟩ := enterContinuous_shape s
    have hnone : requestsIn ev = [] := by rcases hev with rfl | rfl <;> rfl
    exact requestsContinue_of_quiet (by rw [heq]; rfl) hnone (by rw [heq]; rfl)
  | setCont0 =>
    obtain ⟨ev, heq, hev⟩ := leaveContinuous_shape s
    have hnone : requestsIn ev = [] := by rcases hev with rfl | rfl <;> rfl
    exact requestsContinue_of_quiet (by rw [heq]; rfl) hnone (by rw [heq]; rfl)
  | reqSingle =>
    obtain ⟨n, heq⟩ := requestOnce_shape s
    exact requestsContinue_of_requests n (by rw [heq]; rfl) (by rw [heq]; rfl)
  | pacerTick dt =>
    obtain ⟨n, e, heq, _⟩ := tick_shape dt s
    exact requestsContinue_of_requests n (by rw [heq]; rfl) (by rw [heq]; rfl)
  | buildRead p => exact requestsContinue_of_silent rfl rfl
  | buildStop => exact requestsContinue_of_silent rfl rfl
  | hwReset => exact absurd rfl hi

/-! ## The obligations -/

/-- Settles O56, by cases on the transaction: the shape of its operation names every component it can write. -/
theorem writtenByColumn : Obligations.WrittenByColumn := fun _ _ _ _ _ hp hd h =>
  (hostEffect_of_step hp hd h).writtenByColumn

/-- Settles O39, by cases on the transaction: a step that answers a next state ran an input that decodes, and only the
reset input decodes to the reset. -/
theorem requestsAlternate : Obligations.RequestsAlternate := by
  intro s t x rest hp hx h
  cases hd : decodeHost x with
  | error why =>
    rw [step_of_pending hp, hd] at h
    cases h
  | ok i =>
    have hi : i ≠ .hwReset := fun e => hx (eq_reset_of_decodeHost (e ▸ hd))
    exact (hostEffect_of_step hp hd h).requestsContinue hi

end Sys2Proof.Machine
end

section
/-! The step of a transaction and the append of `FEED` (`spec/40_assembler.md`, R40, R80, R82): a step is the meaning of
the oldest transaction, and a hex chunk that fits is appended before the extraction attempt. -/

namespace Sys2Proof.Machine

/-! ## The two transactions -/

theorem exec_feed (chunk : List Ch) (s : State) : exec (.feed chunk) s = .next (returns .nothing (feedChunk chunk s)) :=
  rfl

theorem exec_extract (s : State) : exec .extract s = .next (returns .nothing (extractFrame s)) := rfl

/-! ## A chunk that passes both checks -/

/-- R80: a hex chunk that fits fails neither the alphabet check (R81) nor the capacity check (R82), so of the three
outcomes of `FEED` the extraction attempt is left. -/
theorem feedChunk_of_fits {s : State} {ds : List HexDigit}
    (hfits : ∀ cap, Config.bufCap = some cap → s.buf.length + ds.length ≤ cap) :
    feedChunk (ds.map HexDigit.code) s = extractFrame (appendBuf ds s) := by
  have hhex : toHexDigits (ds.map HexDigit.code) = some ds := toHexDigits_codes ds
  have hcap : exceedsCap (s.buf.length + (ds.map HexDigit.code).length) = false := by
    rw [List.length_map]
    exact exceedsCap_eq_false hfits
  rcases feedChunk_cases (ds.map HexDigit.code) s with ⟨hforeign, _⟩ | ⟨_, _, hover, _⟩ | ⟨ds', hhex', _, heq⟩
  · rw [hhex] at hforeign
    cases hforeign
  · rw [hcap] at hover
    cases hover
  · rw [hhex] at hhex'
    cases hhex'
    exact heq

/-! ## The obligations -/

/-- Settles O8: a decoded transaction is run on the state with the host's sequence one shorter (`step_of_decoded`). -/
theorem stepRunsDecodedTransaction : Obligations.StepRunsDecodedTransaction :=
  fun _ _ _ _ hp hd => step_of_decoded hp hd

/-- Settles O16: both sides are the extraction attempt at the longer buffer (`feedChunk_of_fits`). -/
theorem feedAppendsThenExtracts : Obligations.FeedAppendsThenExtracts := by
  intro s ds hfits
  refine ⟨returns .nothing (extractFrame (appendBuf ds s)), exec_extract _, ?_⟩
  rw [exec_feed, feedChunk_of_fits hfits]

end Sys2Proof.Machine
end

section
/-! The items of the inbound stream (Tables F1 and F2, R54 to R65): what their decoder reads from a frame, that every
code decodes to the instruction it was made from, and that what is decoded spells the bytes again. -/

namespace Sys2Proof

/-! ## Telemetry responses of either page -/

/-- The row of a telemetry response of page `p` (R58). -/
def telemInstr : Page → Telem → Instr
  | .page0 => .telemPage0
  | .page1 => .telemPage1

/-- R54, R56: 228 bytes and a tail of at most 27 fit a one-byte Length. -/
theorem Telem.wf_iff (t : Telem) : t.wf = true ↔ t.tail.length ≤ 27 := by
  simp only [Telem.wf, decide_eq_true_eq, Config.minTelemLen, Config.maxFrameLen]
  omega

theorem wellFormed_telemInstr (p : Page) (t : Telem) : WellFormed (telemInstr p t) = t.wf := by
  cases p <;> rfl

theorem encode_telemInstr (p : Page) (t : Telem) : encode (telemInstr p t) = some (.wire (encodeTelem p t)) := by
  cases p <;> rfl

/-! ## Frames -/

/-- R54: the Length byte is not 0 and counts the whole frame. -/
theorem isFrame_cons (b : Byte) (bs : List Byte) :
    isFrame (b :: bs) = true ↔ b ≠ 0 ∧ b.toNat = (b :: bs).length := by
  simp [isFrame]

theorem length_le_of_isFrame {f : List Byte} (hf : isFrame f = true) : f.length ≤ 255 := by
  cases f with
  | nil => cases hf
  | cons b bs =>
    obtain ⟨_, hlen⟩ := (isFrame_cons b bs).1 hf
    have := b.isLt
    omega

/-- R84: as many bytes as the Length byte counts are a frame. -/
theorem isFrame_take {b : Byte} {bs : List Byte} (h0 : b ≠ 0) (hlen : b.toNat ≤ (b :: bs).length) :
    isFrame ((b :: bs).take b.toNat) = true := by
  have hpos : b.toNat ≠ 0 := fun h => h0 (BitVec.eq_of_toNat_eq h)
  obtain ⟨n, hn⟩ := Nat.exists_eq_succ_of_ne_zero hpos
  have htake : ((b :: bs).take b.toNat).length = b.toNat := List.length_take_of_le hlen
  rw [hn, List.take_succ_cons] at htake ⊢
  exact (isFrame_cons _ _).2 ⟨h0, by rw [htake, hn]⟩

/-- A well-formed telemetry response is a frame: its Length byte does not wrap. -/
theorem isFrame_encodeTelem (p : Page) {t : Telem} (ht : t.wf = true) : isFrame (encodeTelem p t) = true := by
  have htail := t.wf_iff.1 ht
  have hlen := encodeTelem_length p t
  have htoNat : (BitVec.ofNat 8 (228 + t.tail.length)).toNat = 228 + t.tail.length := by
    rw [BitVec.toNat_ofNat]
    omega
  refine (isFrame_cons _ _).2 ⟨fun h => ?_, htoNat.trans hlen.symm⟩
  have hzero : 0 = 228 + t.tail.length := (congrArg BitVec.toNat h).symm.trans htoNat
  omega

/-- A telemetry response read from a frame is well-formed. -/
theorem wf_telemOf {f : List Byte} (hf : isFrame f = true) : (telemOf f).wf = true := by
  have hlen := length_le_of_isFrame hf
  rw [Telem.wf_iff]
  simp only [telemOf, List.length_drop, Config.minTelemLen]
  omega

/-! ## The kind of a frame -/

/-- R59: every frame is an accepted telemetry response of some page, or is some other frame. -/
theorem accepted_or_other (f : List Byte) : (∃ p, Machine.AcceptedFrame f p) ∨ isTelemetry f = false := by
  cases h : isTelemetry f with
  | false => exact Or.inr rfl
  | true =>
    rcases (Machine.isTelemetry_iff f).1 h with h0 | h1
    · exact Or.inl ⟨.page0, h0⟩
    · exact Or.inl ⟨.page1, h1⟩

theorem isTelemetry_of_accepted {f : List Byte} {p : Page} (h : Machine.AcceptedFrame f p) : isTelemetry f = true := by
  rw [Machine.isTelemetry_iff]
  cases p with
  | page0 => exact Or.inl h
  | page1 => exact Or.inr h

/-- R58: the base identifier names the row of an accepted telemetry response. -/
theorem frameKind_of_accepted {f : List Byte} {p : Page} (h : Machine.AcceptedFrame f p) :
    frameKind f = telemInstr p (telemOf f) := by
  have hbase : byteAt f Config.hdrBytes = pageBase p := h.base
  rw [frameKind, if_pos (isTelemetry_of_accepted h), hbase]
  cases p <;> rfl

theorem frameKind_of_other {f : List Byte} (h : isTelemetry f = false) : frameKind f = .otherFrame f := by
  rw [frameKind, if_neg (by simp [h])]

/-- An encoded telemetry response is read as itself. -/
theorem frameKind_encodeTelem (p : Page) (t : Telem) : frameKind (encodeTelem p t) = telemInstr p t := by
  rw [frameKind_of_accepted (encodeTelem_accepted p t), telemOf_encodeTelem]

/-- What is read from a frame is well-formed and spells the frame again. -/
theorem frameKind_spells {f : List Byte} (hf : isFrame f = true) :
    WellFormed (frameKind f) = true ∧ encode (frameKind f) = some (.wire f) := by
  rcases accepted_or_other f with ⟨p, h⟩ | h
  · rw [frameKind_of_accepted h, wellFormed_telemInstr, encode_telemInstr, encodeTelem_telemOf h hf]
    exact ⟨wf_telemOf hf, rfl⟩
  · rw [frameKind_of_other h]
    exact ⟨by simp [WellFormed, otherFrameWf, hf, h], rfl⟩

/-! ## The head of the stream -/

/-- R62: a frame is cut out by its Length byte, whatever follows it. -/
theorem decodeWire_frame {f : List Byte} (hf : isFrame f = true) (rest : List Byte) :
    decodeWire (f ++ rest) = .ok (frameKind f) := by
  cases f with
  | nil => cases hf
  | cons b bs =>
    obtain ⟨h0, hlen⟩ := (isFrame_cons b bs).1 hf
    have hfits : ¬ (b :: (bs ++ rest)).length < b.toNat := by
      rw [hlen]
      simp
    have htake : (b :: (bs ++ rest)).take b.toNat = b :: bs := by
      rw [hlen, ← List.cons_append, List.take_left]
    rw [List.cons_append, decodeWire_cons, if_neg h0, if_neg hfits, htake]

/-- What the inbound decoder reads is a leading 0 (R63) or the frame that the first byte counts (R62). -/
theorem decodeWire_cases {bytes : List Byte} {i : Instr} (h : decodeWire bytes = .ok i) :
    (i = .desync ∧ ∃ rest, bytes = [0] ++ rest) ∨
    ∃ f rest, bytes = f ++ rest ∧ isFrame f = true ∧ i = frameKind f := by
  cases bytes with
  | nil => cases h
  | cons b bs =>
    rw [decodeWire_cons] at h
    by_cases h0 : b = 0
    · rw [if_pos h0] at h
      cases h
      exact Or.inl ⟨rfl, bs, by rw [h0]; rfl⟩
    · by_cases hlen : (b :: bs).length < b.toNat
      · rw [if_neg h0, if_pos hlen] at h
        cases h
      · rw [if_neg h0, if_neg hlen] at h
        cases h
        exact Or.inr ⟨_, _, (List.take_append_drop b.toNat (b :: bs)).symm, isFrame_take h0 (by omega), rfl⟩

/-- The rows that stand in the inbound stream (Table F1). -/
theorem encode_wire_cases {i : Instr} {item : List Byte} (h : encode i = some (.wire item)) :
    (i = .desync ∧ item = [0]) ∨ (∃ p t, i = telemInstr p t ∧ item = encodeTelem p t) ∨ i = .otherFrame item := by
  cases i with
  | desync => cases h; exact Or.inl ⟨rfl, rfl⟩
  | telemPage0 t => cases h; exact Or.inr (Or.inl ⟨.page0, t, rfl, rfl⟩)
  | telemPage1 t => cases h; exact Or.inr (Or.inl ⟨.page1, t, rfl, rfl⟩)
  | otherFrame f => cases h; exact Or.inr (Or.inr rfl)
  | _ => cases h

/-! ## Outbound frames and host inputs -/

theorem allStopPre_length : Config.allStopPre.length = 70 := by simp [Config.allStopPre]

/-- R60, R61: the two outbound frames differ in length, whatever the all-stop's open bytes are. -/
theorem allStopPre_ne_readReqPre (p : Page) : Config.allStopPre ≠ readReqPre p := fun h => by
  have hlen := allStopPre_length
  rw [h] at hlen
  cases hlen

/-- R60, R61: each outbound frame is read as the row it belongs to. -/
theorem decodeOutbound_encode {i : Instr} {bytes : List Byte} (h : encode i = some (.outbound bytes)) :
    decodeOutbound bytes = .ok i := by
  cases i with
  | readReq p =>
    cases h
    cases p <;> rfl
  | allStop =>
    cases h
    rw [decodeOutbound, if_neg (allStopPre_ne_readReqPre _), if_neg (allStopPre_ne_readReqPre _), if_pos rfl]
  | _ => cases h

/-- Table F3: each host input is read as the row it belongs to. -/
theorem decodeHost_encode {i : Instr} {x : HostInput} (h : encode i = some (.host x)) : decodeHost x = .ok i := by
  cases i with
  | storeGet id =>
    cases h
    revert id
    decide
  | pacerTick dt =>
    cases h
    have hdt : natOfBytes (bytesOfNat dt dt) = dt := natOfBytes_bytesOfNat le_rfl
    exact congrArg (fun n => Except.ok (Instr.pacerTick n)) hdt
  | buildRead p =>
    cases h
    cases p <;> rfl
  | _ => cases h <;> rfl

/-! ## The obligations -/

/-- Settles O3: the item is a leading 0 or a frame, and either is told by its first byte (`decodeWire_frame`). -/
theorem wireDecodeIgnoresWhatFollows : Obligations.WireDecodeIgnoresWhatFollows := by
  intro i item rest hwf henc
  rcases encode_wire_cases henc with ⟨rfl, rfl⟩ | ⟨p, t, rfl, rfl⟩ | rfl
  · rfl
  · rw [wellFormed_telemInstr] at hwf
    rw [decodeWire_frame (isFrame_encodeTelem p hwf), frameKind_encodeTelem]
  · obtain ⟨hf, hother⟩ : isFrame item = true ∧ isTelemetry item = false := by
      simpa [WellFormed, otherFrameWf] using hwf
    rw [decodeWire_frame hf, frameKind_of_other hother]

/-- Settles O2, by cases on the place the code is read from; an inbound item is read with nothing after it. -/
theorem decodeAfterEncode : Obligations.DecodeAfterEncode := by
  intro i c hwf henc
  cases c with
  | host x => exact decodeHost_encode henc
  | wire item =>
    have h := wireDecodeIgnoresWhatFollows i item [] hwf henc
    rwa [List.append_nil] at h
  | outbound bytes => exact decodeOutbound_encode henc

/-- Settles O4: what is read is a leading 0 or the frame that the first byte counts (`decodeWire_cases`), and a frame is
spelled again by its kind (`frameKind_spells`). -/
theorem encodeAfterWireDecode : Obligations.EncodeAfterWireDecode := by
  intro bytes i h
  rcases decodeWire_cases h with ⟨rfl, rest, rfl⟩ | ⟨f, rest, rfl, hf, rfl⟩
  · exact ⟨rfl, [0], rest, rfl, rfl⟩
  · obtain ⟨hwf, henc⟩ := frameKind_spells hf
    exact ⟨hwf, f, rest, rfl, henc⟩

/-- Settles O1: each word is the code of its instruction, so `decodeAfterEncode` reads it back. -/
theorem writtenWordsDecode : Obligations.WrittenWordsDecode :=
  ⟨decodeAfterEncode _ _ rfl rfl, decodeAfterEncode _ _ (by decide) rfl, decodeAfterEncode _ _ rfl rfl,
    decodeAfterEncode _ _ rfl rfl, decodeAfterEncode _ _ rfl rfl, decodeAfterEncode _ _ rfl rfl,
    decodeAfterEncode _ _ rfl rfl, decodeAfterEncode _ _ rfl rfl, decodeAfterEncode _ _ rfl rfl⟩

end Sys2Proof
end

section
/-! The meanings of the inbound wire rows and the extraction attempt (R59, R63, R64, R83, R84): a telemetry response
updates its page, any other frame is discarded, and EXTRACT does what the row of the item at the head of the buffer
says. -/

namespace Sys2Proof.Machine

/-! ## Telemetry responses of either page -/

theorem exec_telemInstr (p : Page) (t : Telem) (s : State) : exec (telemInstr p t) s =
    if t.wf then .next (returns .nothing (acceptTelem p t s)) else .fault .operandDomain := by
  cases p <;> rfl

/-- R84: what the extractor takes from the buffer is consumed and its byte check reported; nothing else changes. -/
theorem takeFrame_eq (f : List Byte) (s : State) : takeFrame f s =
    { s with buf := s.buf.drop (2 * f.length), events := s.events ++ [.rxCheck (byteCheck f)] } := rfl

/-- R84, R107, R109: the frame is consumed, its byte check and its page announced, and the store updated. -/
theorem acceptTelem_eq (p : Page) (t : Telem) (s : State) : acceptTelem p t s = { s with
    buf := s.buf.drop (2 * (228 + t.tail.length)), store := (acceptTelem p t s).store,
    events := s.events ++ [.rxCheck (byteCheck (encodeTelem p t)), .pageUpdate p] } := by
  unfold acceptTelem
  rw [storeSlots_eq, takeFrame_eq, encodeTelem_length]
  simp [emit]

/-- R105, R107: the 16 records of the page take the values of their slots. -/
theorem acceptTelem_store_self (p : Page) (t : Telem) (s : State) (k : Fin 16) :
    (acceptTelem p t s).store[pageId p k] = slotValue t.slots[k] s.store[pageId p k] :=
  storeSlots_self p t (takeFrame (encodeTelem p t) s) k

/-- R107: the records of the other page stay. -/
theorem acceptTelem_store_other (p : Page) (t : Telem) (s : State) (k : Fin 16) :
    (acceptTelem p t s).store[pageId (flipPage p) k] = s.store[pageId (flipPage p) k] :=
  storeSlots_other p t (takeFrame (encodeTelem p t) s) k

/-! ## Other frames -/

theorem exec_otherFrame (f : List Byte) (s : State) : exec (.otherFrame f) s =
    if otherFrameWf f then .next (returns .nothing (takeFrame f s)) else .fault .operandDomain := rfl

/-- R54, R59: an `OTHER_FRAME` is a frame, and no accepted telemetry response. -/
theorem otherFrameWf_iff (f : List Byte) : otherFrameWf f = true ↔ isFrame f = true ∧ isTelemetry f = false := by
  simp [otherFrameWf]

/-! ## The item at the head of the buffer -/

/-- The row of an extracted frame means: taken from the buffer, then dispatched to the frame checks (R84, R100). -/
theorem exec_frameKind {f : List Byte} (hf : isFrame f = true) (s : State) :
    exec (frameKind f) s = .next (returns .nothing (dispatchFrame f (takeFrame f s))) := by
  rcases accepted_or_other f with ⟨p, h⟩ | h
  · rw [frameKind_of_accepted h, exec_telemInstr, if_pos (wf_telemOf hf), acceptTelem, encodeTelem_telemOf h hf,
      dispatchFrame_accepted h]
  · rw [frameKind_of_other h, exec_otherFrame, if_pos ((otherFrameWf_iff f).2 ⟨hf, h⟩), dispatchFrame_rejected h]

/-- R83, R84: an extraction attempt waits for an incomplete item, empties the buffer at a leading 0, or takes and
dispatches the one frame at the head. -/
theorem extractFrame_bufHead (s : State) :
    (bufHead s.buf = none ∧ extractFrame s = s) ∨
    (bufHead s.buf = some .desync ∧ extractFrame s = clearBuf s) ∨
    ∃ f, isFrame f = true ∧ bufHead s.buf = some (frameKind f) ∧
      extractFrame s = dispatchFrame f (takeFrame f s) := by
  rcases extractFrame_cases s with ⟨hshort, heq⟩ | ⟨c1, c0, rest, hbuf, hcase⟩
  · exact Or.inl ⟨bufHead_short hshort, heq⟩
  have hhead := bufHead_pair c1 c0 rest
  rw [← hbuf] at hhead
  rcases hcase with ⟨h0, heq⟩ | ⟨h0, hlen, heq⟩ | ⟨h0, hlen, heq⟩
  · rw [if_pos (BitVec.eq_of_toNat_eq h0)] at hhead
    exact Or.inr (Or.inl ⟨hhead, heq⟩)
  all_goals have hne : hexByte c1 c0 ≠ 0 := fun h => h0 (by rw [h]; rfl)
  · rw [if_neg hne, if_pos hlen] at hhead
    exact Or.inl ⟨hhead, heq⟩
  · rw [if_neg hne, if_neg (by omega)] at hhead
    have hcount : (hexByte c1 c0).toNat ≤ (hexByte c1 c0 :: hexDec rest).length := by
      rw [← hexDec_pair, ← hbuf, hexDec_length]
      omega
    have hspan : hexDec (s.buf.take (2 * (hexByte c1 c0).toNat)) =
        (hexByte c1 c0 :: hexDec rest).take (hexByte c1 c0).toNat := by
      rw [hexDec_take, hbuf, hexDec_pair]
    refine Or.inr (Or.inr ⟨_, by rw [hspan]; exact isFrame_take hne hcount, hhead, ?_⟩)
    have hspanLength : (hexDec (s.buf.take (2 * (hexByte c1 c0).toNat))).length = (hexByte c1 c0).toNat := by
      rw [hspan, List.length_take_of_le hcount]
    rw [heq, takeFrame, hspanLength]

/-! ## The obligations -/

/-- Settles O10, by cases on the head of the buffer: the extractor and the row of the item are the same operation
(`exec_frameKind`). -/
theorem extractRunsItemAtHead : Obligations.ExtractRunsItemAtHead := by
  intro s
  rw [exec_extract]
  rcases extractFrame_bufHead s with ⟨hhead, heq⟩ | ⟨hhead, heq⟩ | ⟨f, hf, hhead, heq⟩ <;> rw [hhead, heq]
  · exact ⟨nofun, fun _ => rfl⟩
  · exact ⟨fun _ h => by cases h; rfl, nofun⟩
  · exact ⟨fun _ h => by cases h; rw [exec_frameKind hf], nofun⟩

/-- Settles O13, from the fields and the records an accepted response leaves. -/
theorem telemetryUpdatesItsPage : Obligations.TelemetryUpdatesItsPage := by
  intro p t s htail
  have hexec : exec (telemInstr p t) s = .next (returns .nothing (acceptTelem p t s)) := by
    rw [exec_telemInstr, if_pos (t.wf_iff.2 htail)]
  refine ⟨returns .nothing (acceptTelem p t s), ?_, acceptTelem_store_self p t s, acceptTelem_store_other p t s, ?_⟩
  · cases p <;> exact hexec
  · exact congrArg (returns .nothing) (acceptTelem_eq p t s)

/-- Settles O12: the row empties the buffer and returns nothing. -/
theorem desyncEmptiesBuffer : Obligations.DesyncEmptiesBuffer := fun _ => rfl

/-- Settles O14: the frame is in the row's domain, and taking it is its whole effect (`takeFrame_eq`). -/
theorem otherFrameDiscarded : Obligations.OtherFrameDiscarded := by
  intro f s hf hother
  rw [exec_otherFrame, if_pos ((otherFrameWf_iff f).2 ⟨hf, hother⟩), takeFrame_eq]
  rfl

/-- Settles O45: each operand fails the domain check of its row. -/
theorem outsideDomainFaults : Obligations.OutsideDomainFaults := by
  refine fun s => ⟨rfl, rfl, fun f hf => ?_, fun t htail => ?_⟩
  · have hwf : ¬ otherFrameWf f = true := fun h => by
      obtain ⟨hframe, hother⟩ := (otherFrameWf_iff f).1 h
      rcases hf with h' | h'
      · exact Bool.false_ne_true (h'.symm.trans hframe)
      · exact Bool.false_ne_true (hother.symm.trans h')
    rw [exec_otherFrame, if_neg hwf]
  · have hwf : ¬ t.wf = true := fun h => absurd (t.wf_iff.1 h) (by omega)
    have hfault : ∀ p, exec (telemInstr p t) s = .fault .operandDomain := fun p => by
      rw [exec_telemInstr, if_neg hwf]
    exact ⟨hfault .page0, hfault .page1⟩

end Sys2Proof.Machine
end

section
/-! The ignored bits and bytes of a frame (R65): the checks and the unpacking of `DECODE` see only the header's three
constants, the identifiers, the validity bits and the three fields of each slot. -/

namespace Sys2Proof.Machine

/-- Two sequences agree on every bit that `DECODE` reads (R65, R101, R103, R105). -/
structure ReadAlike (f g : List Byte) : Prop where
  longLeft : 228 ≤ f.length
  longRight : 228 ≤ g.length
  header : ∀ i, 1 ≤ i → i ≤ 3 → f[i]? = g[i]?
  identifier : ∀ k : Fin 16, f[4 + 14 * k.val]? = g[4 + 14 * k.val]?
  valid : ∀ k : Fin 16, validity (byteAt f (4 + 14 * k.val + 1)) = validity (byteAt g (4 + 14 * k.val + 1))
  field : ∀ (k : Fin 16) (j : Nat), 2 ≤ j → j ≤ 7 → byteAt f (4 + 14 * k.val + j) = byteAt g (4 + 14 * k.val + j)

theorem ReadAlike.symm {f g : List Byte} (h : ReadAlike f g) : ReadAlike g f where
  longLeft := h.longRight
  longRight := h.longLeft
  header i h1 h3 := (h.header i h1 h3).symm
  identifier k := (h.identifier k).symm
  valid k := (h.valid k).symm
  field k j h2 h7 := (h.field k j h2 h7).symm

/-- The two checks read the header and the identifiers only (R101, R103). -/
theorem ReadAlike.accepted {f g : List Byte} (h : ReadAlike f g) {p : Page} (hf : AcceptedFrame f p) :
    AcceptedFrame g p := by
  obtain ⟨_, hop, hsub, herr, hids⟩ := hf
  exact ⟨h.longRight, (h.header 1 (by omega) (by omega)).symm.trans hop,
    (h.header 2 (by omega) (by omega)).symm.trans hsub, (h.header 3 (by omega) (by omega)).symm.trans herr,
    fun k => (h.identifier k).symm.trans (hids k)⟩

theorem ReadAlike.isTelemetry_eq {f g : List Byte} (h : ReadAlike f g) : isTelemetry f = isTelemetry g := by
  rw [Bool.eq_iff_iff, isTelemetry_iff, isTelemetry_iff]
  exact ⟨Or.imp h.accepted h.accepted, Or.imp h.symm.accepted h.symm.accepted⟩

/-- A field of a slot is the same word in both (R33). -/
theorem ReadAlike.s16At_eq {f g : List Byte} (h : ReadAlike f g) (k : Fin 16) (j : Nat) (h2 : 2 ≤ j) (h6 : j ≤ 6) :
    s16At f (4 + 14 * k.val + j) = s16At g (4 + 14 * k.val + j) :=
  congrArg₂ s16 (h.field k j h2 (by omega)) (h.field k (j + 1) (by omega) (by omega))

/-- Each slot writes the same record (R105). -/
theorem ReadAlike.slotWrite_eq {f g : List Byte} (h : ReadAlike f g) (p : Page) (s : State) (k : Fin 16) :
    slotWrite p (telemOf f) s k = slotWrite p (telemOf g) s k := by
  have hslot : ∀ f : List Byte, (telemOf f).slots[k] = slotOf f k.val := fun f => by simp [telemOf]
  have hvalid : validity (slotOf f k.val).flags = validity (slotOf g k.val).flags := h.valid k
  have hraw : (slotOf f k.val).raw = (slotOf g k.val).raw := h.s16At_eq k 2 (by omega) (by omega)
  have hoffset : (slotOf f k.val).offset = (slotOf g k.val).offset := h.s16At_eq k 4 (by omega) (by omega)
  have hcommanded : (slotOf f k.val).commanded = (slotOf g k.val).commanded := h.s16At_eq k 6 (by omega) (by omega)
  simp only [slotWrite, hslot, hvalid, hraw, hoffset, hcommanded]

theorem ReadAlike.storeSlots_eq {f g : List Byte} (h : ReadAlike f g) (p : Page) (s : State) :
    storeSlots p (telemOf f) s = storeSlots p (telemOf g) s := by
  have hwrite : slotWrite p (telemOf f) = slotWrite p (telemOf g) := by
    funext s k
    exact h.slotWrite_eq p s k
  rw [storeSlots_eq_foldl, storeSlots_eq_foldl, hwrite]

/-- `DECODE` does the same on both: the same updates, or nothing. -/
theorem ReadAlike.dispatchFrame_eq {f g : List Byte} (h : ReadAlike f g) (s : State) :
    dispatchFrame f s = dispatchFrame g s := by
  rcases accepted_or_other f with ⟨p, hf⟩ | hf
  · rw [dispatchFrame_accepted hf, dispatchFrame_accepted (h.accepted hf), h.storeSlots_eq]
  · rw [dispatchFrame_rejected hf, dispatchFrame_rejected (h.isTelemetry_eq ▸ hf)]

/-- Settles O26: the stated agreement is on all that `DECODE` reads (`ReadAlike.dispatchFrame_eq`). -/
theorem ignoredBytesHaveNoEffect : Obligations.IgnoredBytesHaveNoEffect := by
  intro f g s hf hg hheader hslots
  have h : ReadAlike f g := {
    longLeft := hf
    longRight := hg
    header := hheader
    identifier := fun k => (hslots k).1
    valid := fun k => (hslots k).2.1
    field := fun k j h2 h7 => by
      obtain ⟨_, _, hfield⟩ := hslots k
      rw [byteAt, byteAt, List.getD_eq_getElem?_getD, List.getD_eq_getElem?_getD, hfield j h2 h7] }
  exact congrArg (fun t => Host.Outcome.next (returns .nothing t)) (h.dispatchFrame_eq s)

end Sys2Proof.Machine
end

section
/-! The pseudo-operations (R68, R140): each is the run of the transactions it stands for. -/

namespace Sys2Proof.Machine

/-! ## One FEED, one PACER_TICK -/

/-- The host's sequence plays no part in a `FEED` (R40). -/
theorem feedTransaction_pending (chunk : List Ch) (rest : List HostInput) (s : State) :
    feedTransaction chunk { s with pending := rest } = { feedTransaction chunk s with pending := rest } := by
  obtain ⟨_, houter, hfault⟩ := feedChunk_withOuter s.fault s.result s.lineQueue rest chunk s
  obtain ⟨b, st, fs, ev, hshape, _⟩ := feedChunk_shape chunk s
  rw [hfault rfl] at houter
  have hstate : withOuter s.fault s.result s.lineQueue rest s = { s with pending := rest } := rfl
  rw [hstate, hshape] at houter
  rw [feedTransaction, feedTransaction, houter, hshape]
  rfl

theorem step_feedInput {s : State} {chunk : List Ch} {rest : List HostInput}
    (hp : s.pending = feedInput chunk :: rest) :
    step s = .next { feedTransaction chunk s with pending := rest } := by
  have hdec : decodeHost (feedInput chunk) = .ok (.feed chunk) := decodeHost_encode rfl
  rw [step_of_decoded hp hdec, ← feedTransaction_pending]
  rfl

theorem step_tickInput {s : State} {dt : Nat} {rest : List HostInput} (hp : s.pending = tickInput dt :: rest) :
    step s = .next (tickTransaction dt { s with pending := rest }) := by
  have hdec : decodeHost (tickInput dt) = .ok (.pacerTick dt) := decodeHost_encode rfl
  exact step_of_decoded hp hdec

/-! ## Runs of FEEDs -/

/-- One `FEED` per chunk, in order. -/
def feedAll (chunks : List (List Ch)) (s : State) : State := chunks.foldl (fun s c => feedTransaction c s) s

theorem feedAll_cons (c : List Ch) (chunks : List (List Ch)) (s : State) :
    feedAll (c :: chunks) s = feedAll chunks (feedTransaction c s) := rfl

theorem feedAll_pending (chunks : List (List Ch)) (rest : List HostInput) (s : State) :
    feedAll chunks { s with pending := rest } = { feedAll chunks s with pending := rest } := by
  induction chunks generalizing s with
  | nil => rfl
  | cons c chunks ih => rw [feedAll_cons, feedAll_cons, feedTransaction_pending, ih]

/-- A run over issued chunks feeds them all and goes on with what was issued later. -/
theorem run_feedInputs (n : Nat) (chunks : List (List Ch)) (later : List HostInput) (s : State) :
    run (chunks.length + n) { s with pending := chunks.map feedInput ++ later } =
      run n { feedAll chunks s with pending := later } := by
  induction chunks generalizing s with
  | nil => rw [List.length_nil, Nat.zero_add]; rfl
  | cons c chunks ih =>
    have hstep := step_feedInput (s := { s with pending := (c :: chunks).map feedInput ++ later }) rfl
    rw [feedTransaction_pending] at hstep
    rw [List.length_cons, Nat.succ_add, run_of_next hstep]
    exact ih (feedTransaction c s)

/-- The same with nothing issued later. -/
theorem run_feedInputs_all (chunks : List (List Ch)) (s : State) :
    run chunks.length { s with pending := chunks.map feedInput } =
      .next (feedAll chunks { s with pending := [] }) := by
  have h := run_feedInputs 0 chunks [] s
  rw [List.append_nil] at h
  rw [feedAll_pending]
  exact h

/-- The same with a tick issued after the chunks. -/
theorem run_feedInputs_tick (chunks : List (List Ch)) (dt : Nat) (s : State) :
    run (chunks.map feedInput ++ [tickInput dt]).length
        { s with pending := chunks.map feedInput ++ [tickInput dt] } =
      .next (tickTransaction dt (feedAll chunks { s with pending := [] })) := by
  rw [List.length_append, List.length_map, List.length_singleton, run_feedInputs, run_one,
    feedAll_pending chunks [] s]
  exact step_tickInput rfl

/-! ## The rows -/

theorem exec_feedBytes (f : List Byte) (s : State) : exec (.feedBytes f) s = .next (feedAll [hexText f] s) := rfl

theorem exec_drain (s : State) : exec .drain s = .next (feedAll [[]] s) := rfl

/-- R68: the characters are fed as chunks of one. -/
theorem exec_feedChars (cs : List Ch) (s : State) :
    exec (.feedChars cs) s = .next (feedAll (cs.map fun c => [c]) s) := by
  rw [feedAll, List.foldl_map]
  rfl

/-- R140: the oldest line, if there is one, is taken off the queue and fed, and the pacer ticks. -/
theorem exec_hostTick (dt : Nat) (s : State) : exec (.hostTick dt) s =
    .next (tickTransaction dt (feedAll (s.lineQueue.take 1) { s with lineQueue := s.lineQueue.tail })) := by
  obtain ⟨buf, store, cont, nextPage, elapsed, fault, events, result, lineQueue, pending⟩ := s
  cases lineQueue <;> rfl

/-- R140: `HOST_TICK` stands for the `FEED` of the oldest line, if there is one, and a `PACER_TICK`. -/
theorem expansion_hostTick (queue : List (List Ch)) (dt : Nat) :
    expansion queue (.hostTick dt) = some ((queue.take 1).map feedInput ++ [tickInput dt]) := by
  cases queue <;> rfl

/-! ## The obligations -/

/-- Settles O50, by cases on the pseudo-operation: each feeds its chunks, and `HOST_TICK` ticks after that. -/
theorem pseudoOperationRunsExpansion : Obligations.PseudoOperationRunsExpansion := by
  intro s i inputs h
  cases i with
  | hostTick dt =>
    rw [expansion_hostTick] at h
    cases h
    have hrun := run_feedInputs_tick (s.lineQueue.take 1) dt { s with lineQueue := s.lineQueue.tail }
    exact ⟨_, exec_hostTick dt _, hrun⟩
  | feedBytes f =>
    cases h
    exact ⟨_, exec_feedBytes f _, run_feedInputs_all [hexText f] s⟩
  | feedChars cs =>
    cases h
    have hrun := run_feedInputs_all (cs.map fun c => [c]) s
    rw [List.length_map, List.map_map] at hrun
    exact ⟨_, exec_feedChars cs _, by rw [List.length_map]; exact hrun⟩
  | drain =>
    cases h
    exact ⟨_, exec_drain _, run_feedInputs_all [[]] s⟩
  | _ => cases h

/-- Settles O47: the row is the `FEED` of the text (R68). -/
theorem feedBytesFeedsHexText : Obligations.FeedBytesFeedsHexText :=
  fun s f => ⟨returns .nothing (feedChunk (hexText f) s), exec_feed _ s, exec_feedBytes f s⟩

/-- Settles O48: the empty chunk fits a buffer that fits (`feedChunk_of_fits`), and appends nothing. -/
theorem drainAttemptsExtraction : Obligations.DrainAttemptsExtraction := by
  intro s hs
  have hempty : appendBuf [] s = s := by simp [appendBuf]
  have hfeed : feedChunk [] s = extractFrame s :=
    (feedChunk_of_fits (ds := []) hs).trans (congrArg extractFrame hempty)
  exact ⟨_, exec_extract s, congrArg (fun t => Host.Outcome.next (returns .nothing t)) hfeed⟩

/-- Settles O49, along the list of characters: one `FEED`, then the rest (`feedAll_cons`). -/
theorem feedCharsFeedsEachCharacter : Obligations.FeedCharsFeedsEachCharacter := by
  refine ⟨fun s => exec_feedChars [] s, fun s c cs => ?_⟩
  exact ⟨_, _, exec_feed [c] s, exec_feedChars cs _, exec_feedChars (c :: cs) s⟩

end Sys2Proof.Machine
end

section
/-! The read request (R60, R150) and the inputs that cannot be presented (R67, R124). -/

namespace Sys2Proof.Machine

/-! ## Inputs that cannot be presented -/

/-- R67, U16: Table F3 assigns the codes 1 to 8 only. -/
theorem decodeCommand_unassigned {code : BitVec 4} (h : code.toNat = 0 ∨ 9 ≤ code.toNat) (operand : List Byte) :
    decodeCommand code operand = .error (.unassignedCode code) := by
  unfold decodeCommand
  split
  case h_9 => rfl
  all_goals omega

/-- R124, U17: an identifier has five bits. -/
theorem decodeCommand_idOutOfRange {b : Byte} (h : 0x1F < b.toNat) :
    decodeCommand 3 [b] = .error (.idOutOfRange b) := dif_neg (by omega)

/-- An input that does not decode is refused with the decoder's reason (log 17). -/
theorem step_of_rejected {s : State} {x : HostInput} {rest : List HostInput} {why : Reject}
    (hp : s.pending = x :: rest) (hd : decodeHost x = .error why) : step s = .refused (.cannotBePresented why) := by
  rw [step_of_pending hp, hd]

/-! ## The obligations -/

/-- Settles O5: both inputs fail to decode, each with its own reason. -/
theorem unpresentableInputsRefused : Obligations.UnpresentableInputsRefused := fun _ _ =>
  ⟨fun _ operand hcode hp => step_of_rejected hp (decodeCommand_unassigned hcode operand),
    fun _ hb hp => step_of_rejected hp (decodeCommand_idOutOfRange hb)⟩

/-- Settles O40: for either page `READ_REQ_PRE` is the seven written bytes, and both rows finalize it. -/
theorem readRequestBuilt : Obligations.ReadRequestBuilt := by
  intro s p pp hpp
  have hpre : readReqPre p = [0x07, 0x01, 0x00, 0x05, pp, 0xE0, 0xFF] := by
    subst hpp
    cases p <;> rfl
  rw [← hpre]
  exact ⟨rfl, rfl⟩

end Sys2Proof.Machine
end

section
/-! The frame synchronizer (`spec/40_assembler.md`, R80 to R89): what an extraction attempt does with the characters at
the head of the buffer, what becomes of a chunk that is foreign, too long or only a part of a frame, and why the cuts
between the chunks of a frame play no part. -/

namespace Sys2Proof.Machine

/-! ## The extraction attempt on two characters or more -/

theorem exec_decodeFrame (f : List Byte) (s : State) :
    exec (.decodeFrame f) s = .next (returns .nothing (dispatchFrame f s)) := rfl

/-- R83, R84: a leading 0 empties the buffer, an incomplete span waits, a complete one is cut off, checked and
dispatched. -/
theorem extractFrame_pair {s : State} {c1 c0 : HexDigit} {rest : List HexDigit} (hbuf : s.buf = c1 :: c0 :: rest) :
    extractFrame s =
      if hexByte c1 c0 = 0 then clearBuf s
      else if s.buf.length < 2 * (hexByte c1 c0).toNat then s
      else dispatchFrame (hexDec (s.buf.take (2 * (hexByte c1 c0).toNat)))
        (emit (.rxCheck (byteCheck (hexDec (s.buf.take (2 * (hexByte c1 c0).toNat)))))
          (consume (2 * (hexByte c1 c0).toNat) s)) := by
  rcases extractFrame_cases s with ⟨hshort, _⟩ | ⟨d1, d0, tail, hbuf', hcase⟩
  · simp [hbuf] at hshort
  rw [hbuf] at hbuf'
  cases hbuf'
  have hzero : (hexByte c1 c0).toNat = 0 ↔ hexByte c1 c0 = 0 :=
    ⟨fun h => BitVec.eq_of_toNat_eq h, fun h => by rw [h]; rfl⟩
  rcases hcase with ⟨h0, heq⟩ | ⟨h0, hlen, heq⟩ | ⟨h0, hlen, heq⟩
  · rw [heq, if_pos (hzero.1 h0)]
  · rw [heq, if_neg (h0 ∘ hzero.2), if_pos hlen]
  · rw [heq, if_neg (h0 ∘ hzero.2), if_neg (by omega)]

/-- R84: the span that a nonzero Length byte declares spells a frame. -/
theorem isFrame_leadingSpan {c1 c0 : HexDigit} {rest : List HexDigit} (h0 : hexByte c1 c0 ≠ 0)
    (hlen : 2 * (hexByte c1 c0).toNat ≤ (c1 :: c0 :: rest).length) :
    isFrame (hexDec ((c1 :: c0 :: rest).take (2 * (hexByte c1 c0).toNat))) = true := by
  have hcount : (hexByte c1 c0).toNat ≤ (hexByte c1 c0 :: hexDec rest).length := by
    rw [← hexDec_pair, hexDec_length]
    omega
  rw [hexDec_take, hexDec_pair]
  exact isFrame_take h0 hcount

/-- R83, R84: EXTRACT waits as long as the head of the buffer is no item. -/
theorem extractFrame_of_waits {s : State} (h : bufHead s.buf = none) : extractFrame s = s := by
  rcases extractFrame_bufHead s with ⟨_, heq⟩ | ⟨hhead, _⟩ | ⟨f, _, hhead, _⟩
  · exact heq
  · rw [h] at hhead
    cases hhead
  · rw [h] at hhead
    cases hhead

/-! ## Incomplete items -/

/-- R84: an item is incomplete while fewer characters are buffered than its Length byte declares. -/
theorem bufHead_pair_waits {c1 c0 : HexDigit} {rest : List HexDigit}
    (hlen : (c1 :: c0 :: rest).length < 2 * (hexByte c1 c0).toNat) : bufHead (c1 :: c0 :: rest) = none := by
  have h0 : hexByte c1 c0 ≠ 0 := fun h => by
    rw [h] at hlen
    exact absurd hlen (Nat.not_lt_zero _)
  rw [bufHead_pair, if_neg h0, if_pos hlen]

/-- R54: no incomplete item has the 510 characters of the largest frame. -/
theorem length_lt_of_waits {buf : List HexDigit} (h : bufHead buf = none) : buf.length < 510 := by
  match buf, h with
  | [], _ => simp
  | [_], _ => simp
  | c1 :: c0 :: rest, h =>
    rw [bufHead_pair] at h
    have hbyte := (hexByte c1 c0).isLt
    by_cases h0 : hexByte c1 c0 = 0
    · rw [if_pos h0] at h
      cases h
    · by_cases hlen : (c1 :: c0 :: rest).length < 2 * (hexByte c1 c0).toNat
      · omega
      · rw [if_neg h0, if_neg hlen] at h
        cases h

/-! ## The chunks of FEED -/

/-- R81: a foreign character is found before the length of the chunk is looked at. -/
theorem feedChunk_of_foreign {chunk : List Ch} (h : ∃ c ∈ chunk, isHexDigit c = false) (s : State) :
    feedChunk chunk s = raise .hexFault s := by
  have hnone : toHexDigits chunk = none := (toHexDigits_none_iff chunk).2 h
  rcases feedChunk_cases chunk s with ⟨_, heq⟩ | ⟨ds, hsome, _⟩ | ⟨ds, hsome, _⟩
  · exact heq
  · rw [hnone] at hsome
    cases hsome
  · rw [hnone] at hsome
    cases hsome

/-- R82: a hex chunk that would exceed a finite `BUF_CAP` is refused whole. -/
theorem feedChunk_of_overflow {s : State} {ds : List HexDigit} {cap : Nat} (hcap : Config.bufCap = some cap)
    (hover : cap < s.buf.length + ds.length) : feedChunk (ds.map HexDigit.code) s = raise .bufOverflow s := by
  have hexceeds : exceedsCap (s.buf.length + (ds.map HexDigit.code).length) = true := by
    rw [List.length_map]
    exact (exceedsCap_iff _).2 ⟨cap, hcap, hover⟩
  rcases feedChunk_cases (ds.map HexDigit.code) s with ⟨hforeign, _⟩ | ⟨_, _, _, heq⟩ | ⟨_, _, hfits, _⟩
  · rw [toHexDigits_codes] at hforeign
    cases hforeign
  · exact heq
  · rw [hexceeds] at hfits
    cases hfits

/-- A hex chunk that fits is appended and extracted from (R80). -/
theorem feedTransaction_of_fits {s : State} {ds : List HexDigit}
    (hfits : ∀ cap, Config.bufCap = some cap → s.buf.length + ds.length ≤ cap) :
    feedTransaction (ds.map HexDigit.code) s = returns .nothing (extractFrame (appendBuf ds s)) :=
  congrArg (returns .nothing) (feedChunk_of_fits hfits)

/-- R86: a hex chunk that leaves the item incomplete fits every `BUF_CAP` (D7) and is only appended. -/
theorem feedTransaction_of_waits {s : State} {ds : List HexDigit} (h : bufHead (s.buf ++ ds) = none) :
    feedTransaction (ds.map HexDigit.code) s = returns .nothing (appendBuf ds s) := by
  have hlen := length_lt_of_waits h
  rw [List.length_append] at hlen
  have hfits : ∀ cap, Config.bufCap = some cap → s.buf.length + ds.length ≤ cap := fun cap hcap => by
    have := minBufCap_le hcap
    omega
  rw [feedTransaction_of_fits hfits, extractFrame_of_waits h]

/-- The value that an earlier transaction returned plays no part in a `FEED` (D1). -/
theorem feedTransaction_returns (chunk : List Ch) (r : Result) (s : State) :
    feedTransaction chunk (returns r s) = feedTransaction chunk s := by
  obtain ⟨f, houter, hfault⟩ := feedChunk_withOuter s.fault r s.lineQueue s.pending chunk s
  obtain ⟨b, st, fs, ev, hshape, _⟩ := feedChunk_shape chunk s
  have hstate : withOuter s.fault r s.lineQueue s.pending s = returns r s := rfl
  rw [hfault rfl, hstate, hshape] at houter
  rw [feedTransaction, feedTransaction, houter, hshape]
  rfl

/-! ## A complete frame in chunks -/

/-- The characters of one complete frame: two for each byte its Length byte declares (R54, R84). -/
structure FrameText (ds : List HexDigit) : Prop where
  frame : isFrame (hexDec ds) = true
  even : ds.length = 2 * (hexDec ds).length

/-- A frame begins with the two characters of its Length byte, which counts them all. -/
theorem FrameText.length_eq {c1 c0 : HexDigit} {rest : List HexDigit} (h : FrameText (c1 :: c0 :: rest)) :
    hexByte c1 c0 ≠ 0 ∧ (c1 :: c0 :: rest).length = 2 * (hexByte c1 c0).toNat := by
  obtain ⟨h0, hlen⟩ := (isFrame_cons _ _).1 h.frame
  exact ⟨h0, by rw [hlen]; exact h.even⟩

/-- D7: a frame fits every `BUF_CAP`. -/
theorem FrameText.fits {ds : List HexDigit} (h : FrameText ds) {cap : Nat} (hcap : Config.bufCap = some cap) :
    ds.length ≤ cap := by
  have hcap := minBufCap_le hcap
  have hframe := length_le_of_isFrame h.frame
  have heven := h.even
  omega

/-- R86: what stands before the last character of a frame is incomplete. -/
theorem FrameText.waits_of_append {ds es : List HexDigit} (h : FrameText (ds ++ es)) (hne : es ≠ []) :
    bufHead ds = none := by
  match ds, h with
  | [], _ => rfl
  | [_], _ => rfl
  | c1 :: c0 :: rest, h =>
    obtain ⟨_, hlen⟩ : _ ∧ (c1 :: c0 :: rest ++ es).length = 2 * (hexByte c1 c0).toNat := h.length_eq
    have hpos := List.length_pos_of_ne_nil hne
    rw [List.length_append] at hlen
    exact bufHead_pair_waits (by omega)

/-- R84: no character of a frame stays in the buffer once it is extracted. -/
theorem extractFrame_buf_of_frameText {s : State} (h : FrameText s.buf) : (extractFrame s).buf = [] := by
  match hbuf : s.buf with
  | [] => exact absurd h.frame (by simp [hbuf, isFrame])
  | [_] => exact absurd h.frame (by simp [hbuf, isFrame])
  | c1 :: c0 :: rest =>
    obtain ⟨h0, hlen⟩ := (hbuf ▸ h).length_eq
    rw [extractFrame_pair hbuf, if_neg h0, if_neg (by rw [hbuf]; omega)]
    obtain ⟨st, ev, hshape, _⟩ := dispatchFrame_shape (hexDec (s.buf.take (2 * (hexByte c1 c0).toNat)))
      (emit (.rxCheck (byteCheck (hexDec (s.buf.take (2 * (hexByte c1 c0).toNat)))))
        (consume (2 * (hexByte c1 c0).toNat) s))
    rw [hshape]
    exact List.drop_eq_nil_of_le (by simp [hbuf, ← hlen])

/-- Empty chunks do nothing once a transaction has left the buffer empty (D8). -/
theorem feedAll_empties {chunks : List (List Ch)} {s : State} (hbuf : s.buf = []) (hflat : chunks.flatten = []) :
    feedAll chunks (returns .nothing s) = returns .nothing s := by
  induction chunks with
  | nil => rfl
  | cons c chunks ih =>
    obtain ⟨rfl, hrest⟩ := List.append_eq_nil_iff.1 hflat
    have happend : appendBuf [] s = s := by simp [appendBuf]
    have hfeed : feedTransaction [] s = returns .nothing (appendBuf [] s) :=
      feedTransaction_of_waits (ds := []) (by rw [hbuf]; rfl)
    rw [feedAll_cons, feedTransaction_returns, hfeed, happend]
    exact ih hrest

/-- R87: what is left of a frame does the same in any split as in one chunk. -/
theorem feedAll_of_frameText {chunks : List (List Ch)} {ds : List HexDigit} {s : State}
    (hframe : FrameText (s.buf ++ ds)) (hne : ds ≠ []) (hflat : chunks.flatten = ds.map HexDigit.code) :
    feedAll chunks s = feedTransaction (ds.map HexDigit.code) s := by
  induction chunks generalizing ds s with
  | nil => exact absurd (List.map_eq_nil_iff.1 hflat.symm) hne
  | cons c chunks ih =>
    obtain ⟨fed, left, rfl, rfl, hleft⟩ := List.map_eq_append_iff.1 hflat.symm
    have hfits : ∀ cap, Config.bufCap = some cap → s.buf.length + (fed ++ left).length ≤ cap := fun cap hcap => by
      rw [← List.length_append]
      exact hframe.fits hcap
    rw [feedAll_cons]
    by_cases hlast : left = []
    · subst hlast
      rw [List.append_nil] at hframe hfits ⊢
      rw [feedTransaction_of_fits hfits]
      exact feedAll_empties (extractFrame_buf_of_frameText hframe) hleft.symm
    · rw [← List.append_assoc] at hframe
      have hlater : feedAll chunks (returns .nothing (appendBuf fed s)) =
          feedTransaction (left.map HexDigit.code) (returns .nothing (appendBuf fed s)) :=
        ih hframe hlast hleft.symm
      have hfitsLater : ∀ cap, Config.bufCap = some cap → (appendBuf fed s).buf.length + left.length ≤ cap :=
        fun cap hcap => by
          rw [← List.length_append]
          exact hframe.fits hcap
      have happend : appendBuf left (appendBuf fed s) = appendBuf (fed ++ left) s := by simp [appendBuf]
      rw [feedTransaction_of_waits (hframe.waits_of_append hlast), hlater, feedTransaction_returns,
        feedTransaction_of_fits hfitsLater, happend, feedTransaction_of_fits hfits]

/-! ## The obligations -/

/-- Settles O11: the empty `FEED` is the extraction attempt of `DRAIN`, and EXTRACT runs the row of the item. -/
theorem stepRunsItemAtHead : Obligations.StepRunsItemAtHead := by
  intro s rest i hfits hp hhead
  have hdec : decodeHost (.command 1 []) = .ok (.feed []) := rfl
  obtain ⟨t, hextract, hdrain⟩ := drainAttemptsExtraction { s with pending := rest } hfits
  obtain ⟨hitem, _⟩ := extractRunsItemAtHead { s with pending := rest }
  rw [step_of_decoded hp hdec, ← hitem i hhead, hextract]
  exact hdrain

/-- Settles O15: the two refusals are `feedChunk_of_foreign` and `feedChunk_of_overflow`, and any other chunk fits. -/
theorem feedChecksThenAppends : Obligations.FeedChecksThenAppends := by
  refine ⟨fun s chunk hforeign => ?_, fun s ds => ⟨_, exec_extract _, ?_⟩⟩
  · rw [exec_feed, feedChunk_of_foreign hforeign]
    rfl
  · rw [exec_feed]
    cases hcap : Config.bufCap with
    | none =>
      rw [feedChunk_of_fits (fun cap h => by rw [hcap] at h; cases h)]
      rfl
    | some cap =>
      by_cases hover : cap < s.buf.length + ds.length
      · simp only [if_pos hover]
        rw [feedChunk_of_overflow hcap hover]
        rfl
      · simp only [if_neg hover]
        rw [feedChunk_of_fits (fun cap' h => by rw [hcap] at h; cases h; omega)]
        rfl

/-- Settles O18, from the equation of the attempt (`extractFrame_pair`) and the frame its span spells. -/
theorem extractDispatchesOneFrame : Obligations.ExtractDispatchesOneFrame := by
  intro s c1 c0 rest hbuf h0
  rw [exec_extract, extractFrame_pair hbuf, if_neg h0]
  refine ⟨fun hlen => ?_, fun hlen => ?_⟩
  · rw [if_pos hlen]
    rfl
  · have hframe := isFrame_leadingSpan h0 (hbuf ▸ hlen)
    rw [← hbuf] at hframe
    rw [if_neg (by omega)]
    exact ⟨_, rfl, hframe, _, exec_decodeFrame _ _, rfl⟩

/-- Settles O19: the buffer and the chunk together are an incomplete item (`feedTransaction_of_waits`). -/
theorem feedWaitsWhileIncomplete : Obligations.FeedWaitsWhileIncomplete := by
  intro s ds c1 c0 rest hbuf hlen
  have hwaits : bufHead (s.buf ++ ds) = none := by
    rw [hbuf] at hlen ⊢
    exact bufHead_pair_waits hlen
  exact congrArg Host.Outcome.next (feedTransaction_of_waits hwaits)

/-- Settles O20: the events are those that `feedChunk_shape` finds. -/
theorem oneFramePerFeed : Obligations.OneFramePerFeed := by
  intro s t chunk h
  rw [exec_feed] at h
  cases h
  obtain ⟨_, _, _, new, hshape, _, hnew, _⟩ := feedChunk_shape chunk s
  exact ⟨new, by rw [hshape]; rfl, hnew⟩

/-- Settles O21: the run of the chunks feeds them all, and from an empty buffer that is one `FEED` of the frame
(`feedAll_of_frameText`). -/
theorem fragmentationInvariance : Obligations.FragmentationInvariance := by
  intro s chunks ds later hbuf hflat hframe heven
  have hne : ds ≠ [] := fun h => by
    rw [h] at hframe
    cases hframe
  have htext : FrameText (s.buf ++ ds) := by
    rw [hbuf]
    exact ⟨hframe, heven⟩
  have hrun := run_feedInputs 0 chunks later s
  have hwhole := run_feedInputs 0 [ds.map HexDigit.code] later s
  rw [feedAll_of_frameText htext hne hflat] at hrun
  calc run chunks.length { s with pending := chunks.map feedInput ++ later }
      = .next { feedTransaction (ds.map HexDigit.code) s with pending := later } := hrun
    _ = run 1 { s with pending := feedInput (ds.map HexDigit.code) :: later } := hwhole.symm
    _ = step { s with pending := feedInput (ds.map HexDigit.code) :: later } := run_one _

/-- Settles O23: the first `FEED` empties the buffer, and the second does not see the value the first returned. -/
theorem recoveryAfterDesync : Obligations.RecoveryAfterDesync := by
  intro s ds c1 c0 lost chunk later hbuf h0 hfits
  have hdesync : feedTransaction (ds.map HexDigit.code) s = returns .nothing (clearBuf s) := by
    rw [feedTransaction_of_fits hfits, extractFrame_pair (s := appendBuf ds s) hbuf, if_pos h0]
    rfl
  have hchunk : feedAll [ds.map HexDigit.code, chunk] s = feedAll [chunk] (clearBuf s) := by
    rw [feedAll_cons, hdesync, feedAll_cons, feedTransaction_returns]
    rfl
  have hboth := run_feedInputs 0 [ds.map HexDigit.code, chunk] later s
  have hone := run_feedInputs 0 [chunk] later (clearBuf s)
  rw [hchunk] at hboth
  calc run 2 { s with pending := feedInput (ds.map HexDigit.code) :: feedInput chunk :: later }
      = .next { feedAll [chunk] (clearBuf s) with pending := later } := hboth
    _ = run 1 { clearBuf s with pending := feedInput chunk :: later } := hone.symm
    _ = step { s with buf := [], pending := feedInput chunk :: later } := run_one _

/-- Settles O17: fewer than two characters are no item, and a leading 0 is a desync (`extractFrame_pair`). -/
theorem extractWaitsOrDesyncs : Obligations.ExtractWaitsOrDesyncs := by
  refine ⟨fun s hshort => ?_, fun s c1 c0 rest hbuf h0 => ?_⟩
  · rw [exec_extract, extractFrame_of_waits (bufHead_short hshort)]
    rfl
  · rw [exec_extract, extractFrame_pair hbuf, if_pos h0]
    rfl

/-- Settles O22: the transaction empties the buffer and returns nothing. -/
theorem bufResetEmptiesBuffer : Obligations.BufResetEmptiesBuffer := fun _ => rfl

end Sys2Proof.Machine
end

section
/-! The frame checks and the unpacker (`spec/41_decoder.md`, R100 to R111): what `DECODE` does with an accepted frame
and with any other, and how a frame fed as text to an empty buffer comes to it (R110). -/

namespace Sys2Proof.Machine

/-! ## What DECODE does with a frame -/

/-- The slot that is read at the offsets of Table F2 holds the flag byte and the three fields of R105. -/
theorem slotValue_telemOf (f : List Byte) (k : Fin 16) (old : Record) :
    slotValue (telemOf f).slots[k] old = slotRecord f k old := by
  have hslot : (telemOf f).slots[k] = slotOf f k.val := by simp [telemOf]
  rw [hslot]
  rfl

/-- R105, R107: the updates from the slots of a frame store its page and leave the other one. -/
theorem pageStored_storeSlots (f : List Byte) (p : Page) (s : State) :
    PageStored f p s.store (storeSlots p (telemOf f) s).store :=
  ⟨fun k => (storeSlots_self p (telemOf f) s k).trans (slotValue_telemOf f k _), storeSlots_other p (telemOf f) s⟩

/-- R107, R109: on an accepted frame `DECODE` writes the store, announces the page, and nothing else changes. -/
theorem dispatchFrame_accepted_eq {f : List Byte} {p : Page} (h : AcceptedFrame f p) (s : State) :
    dispatchFrame f s = { s with
      store := (storeSlots p (telemOf f) s).store, events := s.events ++ [.pageUpdate p] } := by
  rw [dispatchFrame_accepted h, storeSlots_eq]
  rfl

/-- R101, R103: a frame that is accepted for neither page fails a check. -/
theorem isTelemetry_eq_false {f : List Byte} (h0 : ¬ AcceptedFrame f .page0) (h1 : ¬ AcceptedFrame f .page1) :
    isTelemetry f = false := by
  rcases accepted_or_other f with ⟨p, hp⟩ | hother
  · cases p with
    | page0 => exact absurd hp h0
    | page1 => exact absurd hp h1
  · exact hother

/-! ## A frame fed as text -/

/-- R7: the hex text of a frame is the characters of one complete frame. -/
theorem frameText_hexEnc {f : List Byte} (hf : isFrame f = true) : FrameText (hexEnc f) where
  frame := by rwa [hexDec_hexEnc]
  even := by rw [hexEnc_length, hexDec_hexEnc]

/-- R84: when the buffer is exactly one frame, the extraction attempt takes and dispatches that frame. -/
theorem extractFrame_of_frameText {s : State} (h : FrameText s.buf) :
    extractFrame s = dispatchFrame (hexDec s.buf) (takeFrame (hexDec s.buf) s) := by
  match hbuf : s.buf with
  | [] => exact absurd h.frame (by simp [hbuf, isFrame])
  | [_] => exact absurd h.frame (by simp [hbuf, isFrame])
  | c1 :: c0 :: rest =>
    rw [hbuf] at h
    obtain ⟨h0, hlen⟩ := h.length_eq
    rw [extractFrame_pair hbuf, if_neg h0, hbuf, if_neg (Nat.not_lt.2 hlen.ge), ← hlen, List.take_length, h.even]
    rfl

/-- R68, R110: fed as text to an empty buffer, a frame is checked and decoded at once, and the buffer is empty again. -/
theorem exec_feedBytes_of_frame {f : List Byte} {s : State} (hbuf : s.buf = []) (hf : isFrame f = true) :
    exec (.feedBytes f) s =
      exec (.decodeFrame f) { s with events := s.events ++ [.rxCheck (byteCheck f)] } := by
  have htext := frameText_hexEnc hf
  have hfull : (appendBuf (hexEnc f) s).buf = hexEnc f := by rw [appendBuf_buf, hbuf, List.nil_append]
  have hextract := extractFrame_of_frameText (s := appendBuf (hexEnc f) s) (by rwa [hfull])
  have hfits : ∀ cap, Config.bufCap = some cap → s.buf.length + (hexEnc f).length ≤ cap := fun cap hcap => by
    rw [hbuf, List.length_nil, Nat.zero_add]
    exact htext.fits hcap
  have htaken : takeFrame f (appendBuf (hexEnc f) s) =
      { s with events := s.events ++ [.rxCheck (byteCheck f)] } := by
    rw [takeFrame_eq, hfull, ← hexEnc_length, List.drop_length, ← hbuf]
    rfl
  have hfeed : feedTransaction (hexText f) s =
      returns .nothing (dispatchFrame f { s with events := s.events ++ [.rxCheck (byteCheck f)] }) := by
    rw [hexText, feedTransaction_of_fits hfits, hextract, hfull, hexDec_hexEnc, htaken]
  exact congrArg Host.Outcome.next hfeed

/-! ## The obligations -/

/-- Settles O24, from the fields (`dispatchFrame_accepted_eq`) and the records (`pageStored_storeSlots`) that the
unpacking leaves. -/
theorem acceptedFrameUnpacked : Obligations.AcceptedFrameUnpacked := by
  intro f p s h
  refine ⟨_, exec_decodeFrame f s, ?_⟩
  rw [dispatchFrame_accepted_eq h]
  exact ⟨pageStored_storeSlots f p s, rfl⟩

/-- Settles O25: such a frame fails a check, and `DECODE` leaves the state as it is. -/
theorem otherFrameChangesNothing : Obligations.OtherFrameChangesNothing := by
  intro f s h0 h1
  rw [exec_decodeFrame, dispatchFrame_rejected (isTelemetry_eq_false h0 h1)]
  rfl

/-- Settles O27: the text of the frame comes to `DECODE` after its byte check (`exec_feedBytes_of_frame`), which unpacks
it (O24). -/
theorem telemetryEndToEnd : Obligations.TelemetryEndToEnd := by
  intro f p s hbuf hf h
  obtain ⟨t, hexec, hstored, ht⟩ :=
    acceptedFrameUnpacked f p { s with events := s.events ++ [.rxCheck (byteCheck f)] } h
  refine ⟨t, (exec_feedBytes_of_frame hbuf hf).trans hexec, hstored, ht.trans ?_⟩
  rw [List.append_assoc]
  rfl

end Sys2Proof.Machine
end

section
/-! The servo store (`spec/42_store.md`, R120 to R125): what each transaction leaves of the records, and the range of the
exact difference that `STORE_GET` returns (D12). -/

namespace Sys2Proof.Machine

/-! ## The three transactions -/

theorem exec_storeGet (id : Id) (s : State) :
    exec (.storeGet id) s = .next (returns (.record (recordView s.store[id])) s) := rfl

theorem exec_storeInit (s : State) : exec .storeInit s = .next (returns .nothing (initializeStore s)) := rfl

theorem exec_storeUpdate (id : Id) (v : Bool) (raw off cmd : BitVec 16) (s : State) :
    exec (.storeUpdate id v raw off cmd) s = .next (returns .nothing (updateRecord id v raw off cmd s)) := rfl

/-! ## The calibrated value -/

/-- R125: the exact difference of two 16-bit fields needs 17 bits, whatever the fields hold. -/
theorem calibrated_range (r : Record) : -65535 ≤ calibrated r ∧ calibrated r ≤ 65535 := by
  have hrawMin : -32768 ≤ r.raw.toInt := BitVec.le_toInt r.raw
  have hrawMax : r.raw.toInt < 32768 := BitVec.toInt_lt
  have hoffMin : -32768 ≤ r.offset.toInt := BitVec.le_toInt r.offset
  have hoffMax : r.offset.toInt < 32768 := BitVec.toInt_lt
  rw [calibrated]
  omega

/-! ## The obligations -/

/-- Settles O29: `STORE_GET` returns the view of the record, whose difference is bounded by `calibrated_range`. -/
theorem calibratedValueRange : Obligations.CalibratedValueRange := fun s id =>
  ⟨recordView s.store[id], exec_storeGet id s, rfl, calibrated_range s.store[id]⟩

/-- Settles O28: the tuple is the view of the record, field by field. -/
theorem storeGetReturnsRecord : Obligations.StoreGetReturnsRecord := fun s id => exec_storeGet id s

/-- Settles O30: the written record and the others are read back by the rules of `updateRecord`. -/
theorem storeUpdateOverwritesRecord : Obligations.StoreUpdateOverwritesRecord := by
  intro s id v raw off cmd
  refine ⟨_, exec_storeUpdate id v raw off cmd s, ?written, fun j hj => ?other, rfl⟩
  case written => exact updateRecord_store_self id v raw off cmd s
  case other => exact updateRecord_store_ne id j v raw off cmd s hj

/-- Settles O31: every record of the new store is the fresh one of its identifier (`initStore_get`). -/
theorem storeInitInvalidatesAll : Obligations.StoreInitInvalidatesAll := fun s =>
  ⟨_, exec_storeInit s, initStore_get, rfl⟩

end Sys2Proof.Machine
end

section
/-! The request pacer (`spec/43_pacer.md`, R130 to R140): what a tick does in each mode, as division with remainder by
the interval, what a change of mode leaves, and the line that `HOST_TICK` feeds first. -/

namespace Sys2Proof.Machine

/-! ## The transactions -/

theorem exec_setCont1 (s : State) : exec .setCont1 s = .next (returns .nothing (enterContinuous s)) := rfl

theorem exec_setCont0 (s : State) : exec .setCont0 s = .next (returns .nothing (leaveContinuous s)) := rfl

theorem exec_reqSingle (s : State) : exec .reqSingle s = .next (returns .nothing (requestOnce s)) := rfl

theorem exec_pacerTick (dt : Nat) (s : State) : exec (.pacerTick dt) s = .next (tickTransaction dt s) := rfl

theorem exec_issueRequest (s : State) : exec .issueRequest s = .next (returns .nothing (issue s)) := rfl

/-! ## The two modes -/

/-- R131: of the two cases of `enterContinuous_shape`, the mode before decides which. -/
theorem enterContinuous_eq (s : State) : enterContinuous s = { s with
    cont := true, elapsed := 0, events := if s.cont = true then s.events else s.events ++ [.modeChange true] } := by
  cases hc : s.cont <;> simp [enterContinuous, hc, emit]

/-- R132: of the two cases of `leaveContinuous_shape`, the mode before decides which. -/
theorem leaveContinuous_eq (s : State) : leaveContinuous s = { s with
    cont := false, events := if s.cont = true then s.events ++ [.modeChange false] else s.events } := by
  cases hc : s.cont <;> simp [leaveContinuous, hc, emit]

/-! ## Requests in a row -/

/-- R18, R134: `n` issued requests alternate from the next page. -/
theorem iterate_issue (n : Nat) (s : State) : issue^[n] s = { s with
    nextPage := flipPage^[n] s.nextPage, events := s.events ++ (requestsFrom s.nextPage n).map .tx } := by
  induction n generalizing s with
  | zero => simp [requestsFrom]
  | succ n ih =>
    rw [Function.iterate_succ_apply, ih]
    simp [issue, emit, requestsFrom, readRequest]

/-- Requests do not look at the timer. -/
theorem iterate_issue_elapsed (n e : Nat) (s : State) :
    issue^[n] { s with elapsed := e } = { issue^[n] s with elapsed := e } := by
  rw [iterate_issue, iterate_issue]

/-- Below the interval no request is due, and the timer is its own remainder. -/
theorem iterate_issue_of_below {s : State} (h : s.elapsed < 200) :
    { issue^[s.elapsed / 200] s with elapsed := s.elapsed % 200 } = s := by
  rw [Nat.div_eq_of_lt h, Nat.mod_eq_of_lt h]
  rfl

/-- R135, R137: with a pass for each unit of the timer, the catch-up loop divides the timer by the interval: a request
for each whole interval, and the remainder is kept. -/
theorem catchUp_eq {fuel : Nat} {s : State} (h : s.elapsed ≤ fuel) :
    catchUp fuel s = { issue^[s.elapsed / 200] s with elapsed := s.elapsed % 200 } := by
  induction fuel generalizing s with
  | zero =>
    have hlt : s.elapsed < 200 := by omega
    exact (iterate_issue_of_below hlt).symm
  | succ fuel ih =>
    rw [catchUp_succ]
    split
    next hge =>
      have hdiv : s.elapsed / 200 = (s.elapsed - 200) / 200 + 1 := by omega
      have hmod : (s.elapsed - 200) % 200 = s.elapsed % 200 := by omega
      rw [ih (by simp only; omega), iterate_issue_elapsed, hdiv, Function.iterate_succ_apply]
      simp only [hmod]
    next hlt =>
      exact (iterate_issue_of_below (Nat.lt_of_not_le hlt)).symm

/-! ## One tick -/

theorem tickTransaction_of_idle {s : State} (hc : s.cont = false) (dt : Nat) :
    tickTransaction dt s = { s with result := .nothing } := by
  rcases tick_cases dt s with ⟨_, heq⟩ | ⟨hcont, _⟩
  · rw [tickTransaction, heq]
    rfl
  · rw [hc] at hcont
    cases hcont

/-- R137: the timer before the tick and the tick together are divided by the interval. -/
theorem tickTransaction_of_cont {s : State} (hc : s.cont = true) (dt : Nat) : tickTransaction dt s = { s with
    elapsed := (s.elapsed + dt) % 200, nextPage := flipPage^[(s.elapsed + dt) / 200] s.nextPage,
    events := s.events ++ (requestsFrom s.nextPage ((s.elapsed + dt) / 200)).map .tx, result := .nothing } := by
  rcases tick_cases dt s with ⟨hidle, _⟩ | ⟨_, heq⟩
  · rw [hc] at hidle
    cases hidle
  · rw [tickTransaction, heq, catchUp_eq (s := { s with elapsed := s.elapsed + dt }) le_rfl, iterate_issue]
    rfl

/-! ## Ticks in a row -/

theorem step_tick_of_cont {s : State} {dt : Nat} {rest : List HostInput} (hc : s.cont = true)
    (hp : s.pending = tickInput dt :: rest) : step s = .next { s with
      elapsed := (s.elapsed + dt) % 200, nextPage := flipPage^[(s.elapsed + dt) / 200] s.nextPage,
      events := s.events ++ (requestsFrom s.nextPage ((s.elapsed + dt) / 200)).map .tx, result := .nothing,
      pending := rest } :=
  (step_tickInput hp).trans (congrArg _ (tickTransaction_of_cont (s := { s with pending := rest }) hc dt))

/-- A tick that does not reach the interval only advances the timer. -/
theorem step_tick_below {s : State} {dt : Nat} {rest : List HostInput} (hc : s.cont = true)
    (hp : s.pending = tickInput dt :: rest) (hlt : s.elapsed + dt < 200) :
    step s = .next { s with elapsed := s.elapsed + dt, result := .nothing, pending := rest } := by
  rw [step_tick_of_cont hc hp, Nat.div_eq_of_lt hlt, Nat.mod_eq_of_lt hlt]
  simp [requestsFrom]

/-- A tick that just reaches the interval issues one request and leaves no remainder. -/
theorem step_tick_reaching {s : State} {dt : Nat} {rest : List HostInput} (hc : s.cont = true)
    (hp : s.pending = tickInput dt :: rest) (hsum : s.elapsed + dt = 200) :
    step s = .next { issue s with elapsed := 0, result := .nothing, pending := rest } := by
  rw [step_tick_of_cont hc hp, hsum]
  rfl

/-- Equal ticks that together do not reach the interval add up in the timer, and the run goes on from there. -/
theorem run_ticks_below {n k dt : Nat} {later : List HostInput} {s : State} (hc : s.cont = true)
    (hp : s.pending = List.replicate (n + 1) (tickInput dt) ++ later) (hlt : s.elapsed + (n + 1) * dt < 200) :
    run (n + 1 + k) s = run k { s with elapsed := s.elapsed + (n + 1) * dt, result := .nothing, pending := later } := by
  induction n generalizing s with
  | zero =>
    rw [Nat.zero_add, Nat.one_mul] at hlt ⊢
    rw [Nat.add_comm, run_of_next (step_tick_below hc hp hlt)]
    rfl
  | succ n ih =>
    have hsum : s.elapsed + (n + 1 + 1) * dt = s.elapsed + dt + (n + 1) * dt := by ring
    rw [hsum] at hlt ⊢
    have hfirst : s.elapsed + dt < 200 := by omega
    rw [Nat.succ_add (n + 1) k, run_of_next (step_tick_below hc hp hfirst)]
    exact ih hc rfl hlt

/-! ## The obligations -/

/-- Settles O36: the state is that of `tickTransaction_of_cont`, and a timer below the interval adds at most one
request. -/
theorem continuousTickArithmetic : Obligations.ContinuousTickArithmetic := by
  intro s dt hc
  refine ⟨?state, fun hbelow => ?bound⟩
  case state => rw [exec_pacerTick, tickTransaction_of_cont hc]
  case bound => omega

/-- Settles O32, from the state that entering the mode leaves (`enterContinuous_eq`). -/
theorem enterContinuousMode : Obligations.EnterContinuousMode := fun s => by
  rw [exec_setCont1, enterContinuous_eq]
  rfl

/-- Settles O33, from the state that leaving the mode leaves (`leaveContinuous_eq`). -/
theorem leaveContinuousMode : Obligations.LeaveContinuousMode := fun s => by
  rw [exec_setCont0, leaveContinuous_eq]
  rfl

/-- Settles O34: `READ_REQ_PRE` of the next page is the seven written bytes (R60), and the flip is the other page. -/
theorem issueRequestFlipsPage : Obligations.IssueRequestFlipsPage := exec_issueRequest

/-- Settles O35: while continuous nothing is issued; when idle the transaction is `ISSUE_REQUEST`. -/
theorem requestSingleRead : Obligations.RequestSingleRead := by
  intro s
  rw [exec_reqSingle]
  rcases requestOnce_cases s with ⟨hc, heq⟩ | ⟨hc, heq⟩
  · rw [heq, if_pos hc]
    rfl
  · rw [heq, if_neg (by simp [hc])]
    exact issueRequestFlipsPage s

/-- Settles O37, from `tickTransaction_of_idle`. -/
theorem idleTickDoesNothing : Obligations.IdleTickDoesNothing := fun s dt hc => by
  rw [exec_pacerTick, tickTransaction_of_idle hc]

/-- Settles O38: three ticks of 50 add up below the interval (`run_ticks_below`), and the fourth makes it whole. -/
theorem fourTicksOneRequest : Obligations.FourTicksOneRequest := by
  intro s later hc he hpage hp
  have hinput : HostInput.command 6 [0x32] = tickInput 50 := by decide
  rw [hinput] at hp
  refine ⟨fun n h1 h3 => ?below, ?fourth⟩
  case below =>
    obtain ⟨m, rfl⟩ : ∃ m, n = m + 1 := ⟨n - 1, by omega⟩
    have hsplit : s.pending = List.replicate (m + 1) (tickInput 50) ++ s.pending.drop (m + 1) := by
      rw [hp, List.drop_append_of_le_length (by simp; omega), List.drop_replicate, ← List.append_assoc,
        List.replicate_append_replicate]
      congr 2
      omega
    have hrun := run_ticks_below (k := 0) hc hsplit (by omega)
    rw [he, Nat.zero_add, Nat.mul_comm] at hrun
    exact hrun
  case fourth =>
    have hthree := run_ticks_below (n := 2) (k := 1) (later := tickInput 50 :: later) hc hp (by omega)
    rw [he, run_one] at hthree
    have hfourth := step_tick_reaching
      (s := { s with elapsed := 150, result := .nothing, pending := tickInput 50 :: later }) hc rfl rfl
    refine hthree.trans (hfourth.trans ?_)
    rw [hpage]
    rfl

/-- Settles O46, by cases on the line queue: without a line `HOST_TICK` is the tick alone, and with one it is the tick
after the `FEED` of the oldest (`exec_hostTick`). -/
theorem hostTickFeedsThenTicks : Obligations.HostTickFeedsThenTicks := by
  intro s dt
  refine ⟨fun hq => ?idle, fun l q hq => ?line⟩
  case idle =>
    have hsame : { s with lineQueue := [] } = s := by rw [← hq]
    refine ⟨_, exec_pacerTick dt s, (exec_hostTick dt s).trans ?_⟩
    rw [hq]
    exact congrArg (fun u => Host.Outcome.next (tickTransaction dt u)) hsame
  case line =>
    refine ⟨_, _, exec_feed l _, exec_pacerTick dt _, (exec_hostTick dt s).trans ?_⟩
    rw [hq]
    rfl

end Sys2Proof.Machine
end

section
/-! The encoder and the checksum (`spec/44_encoder_checksum.md`, R150 to R159): what `FINALIZE` builds, what `RX_CHECK`
compares, and why the second accepts the first whatever `Obf` and `Cks` are. -/

namespace Sys2Proof.Machine

/-! ## The finalizing step and the byte check, as functions of bytes -/

/-- R155: the one assumption on `Obf`. -/
@[simp] theorem length_obf (x : List Byte) : (Config.obf x).length = x.length := by simp [Config.obf]

/-- R154: a finalized frame is a body with its own checksum after it. -/
theorem finalizeFrame_eq (pre : List Byte) : finalizeFrame pre =
    (Config.obf pre).take (pre.length - 1) ++ [Config.cks ((Config.obf pre).take (pre.length - 1))] := rfl

/-- R154, R155: the checksum takes the place of the last byte, so a frame that has one keeps its length. -/
theorem length_finalizeFrame {pre : List Byte} (h : 1 ≤ pre.length) : (finalizeFrame pre).length = pre.length := by
  have hbody : ((Config.obf pre).take (pre.length - 1)).length = pre.length - 1 := by simp
  rw [finalizeFrame_eq, List.length_append, hbody, List.length_singleton]
  omega

/-- R158: the last byte is compared with `Cks` of the bytes before it. -/
theorem byteCheck_concat (body : List Byte) (last : Byte) :
    byteCheck (body ++ [last]) = (last == Config.cks body) := by
  have hlast : (body ++ [last]).length - 1 = body.length := by simp
  rw [byteCheck, byteCheckWith, hlast, List.getElem?_concat_length, List.take_left]
  rfl

/-- R159: the byte check finds the checksum that `FINALIZE` wrote, of the same body. -/
theorem byteCheck_finalizeFrame (pre : List Byte) : byteCheck (finalizeFrame pre) = true := by
  rw [finalizeFrame_eq, byteCheck_concat]
  exact beq_self_eq_true _

/-! ## The two rows on a sequence in their domain -/

theorem nonEmpty_iff (f : List Byte) : nonEmpty f = true ↔ 1 ≤ f.length := decide_eq_true_iff

theorem exec_finalize {pre : List Byte} (h : 1 ≤ pre.length) (s : State) :
    exec (.finalize pre) s = .next (returns (.bytes (finalizeFrame pre)) s) := if_pos ((nonEmpty_iff pre).2 h)

theorem exec_rxCheck {f : List Byte} (h : 1 ≤ f.length) (s : State) :
    exec (.rxCheck f) s = .next (returns (.truth (byteCheck f)) s) := if_pos ((nonEmpty_iff f).2 h)

/-! ## The obligations -/

/-- Settles O44: the finalized frame keeps its length, so it is in the domain of the byte check, which finds the
checksum it compares with. -/
theorem byteCheckAcceptsFinalized : Obligations.ByteCheckAcceptsFinalized := by
  intro s pre h
  have hlen := length_finalizeFrame h
  have hcheck : exec (.rxCheck (finalizeFrame pre)) s = .next (returns (.truth true) s) := by
    rw [exec_rxCheck (by omega), byteCheck_finalizeFrame]
  exact ⟨finalizeFrame pre, exec_finalize h s, hlen, hcheck⟩

/-- R153: the last byte comes after the 69 open ones. -/
theorem allStopPre_last : Config.allStopPre[69]? = some 0xFF := by
  have hopen : ((List.range (Config.allStopLen - 1)).map Config.allStopByte).length = 69 := by simp
  rw [Config.allStopPre, ← hopen]
  exact List.getElem?_concat_length

/-- Settles O41: `allStopPre_length` and `allStopPre_last` are the shape of `ALLSTOP_PRE`, and both rows finalize it. -/
theorem allStopBuilt : Obligations.AllStopBuilt := ⟨allStopPre_length, allStopPre_last, fun _ => ⟨rfl, rfl⟩⟩

/-- Settles O42: `exec_finalize`, with the frame it returns written out by `finalizeFrame_eq`. -/
theorem finalizeComposition : Obligations.FinalizeComposition := by
  intro s pre h
  rw [← finalizeFrame_eq]
  exact exec_finalize h s

/-- Settles O43: a sequence with a last byte is in the domain of `RX_CHECK`, which compares as `byteCheck_concat`
says. -/
theorem byteCheckCompares : Obligations.ByteCheckCompares := by
  intro s body last
  have hdom : 1 ≤ (body ++ [last]).length := by simp
  rw [← byteCheck_concat]
  exact exec_rxCheck hdom s

end Sys2Proof.Machine
end

section
/-! Exceptions and events (`spec/60_exceptions.md`, R176, R177, R187): what the block has delivered stays delivered, and
a recorded fault stays recorded and decides nothing. -/

namespace Sys2Proof.Machine

/-! ## Steps and events -/

/-- R187: the host has issued nothing, so there is no transaction to run. -/
theorem step_of_idle {s : State} (hp : s.pending = []) : step s = .next s := by
  rcases step_cases s with ⟨_, heq⟩ | ⟨x, rest, _, hp', _⟩ | ⟨x, rest, _, hp', _⟩
  · exact heq
  · rw [hp] at hp'
    cases hp'
  · rw [hp] at hp'
    cases hp'

/-- R177: the reset emits nothing and keeps the list (log 13); every other transaction appends to it. -/
theorem HostEffect.events_prefix {i : Instr} {s t : State} (h : HostEffect s i t) : s.events <+: t.events := by
  by_cases hi : i = .hwReset
  · subst hi
    cases h
    exact List.prefix_rfl
  · obtain ⟨new, _, happended, _⟩ := h.requestsContinue hi
    exact ⟨new, happended.symm⟩

/-! ## Operations that only add faults -/

theorem FaultsKept.refl (s : State) : FaultsKept s s := fun _ h => h

theorem FaultsKept.trans {s t u : State} (hst : FaultsKept s t) (htu : FaultsKept t u) : FaultsKept s u :=
  fun k h => htu k (hst k h)

/-- The operation keeps every recorded fault, and does the same whatever the fault set is, but to it (R176). -/
structure OpOnlyAddsFaults (op : State → State) : Prop where
  kept : ∀ s, FaultsKept s (op s)
  ungated : ∀ s f, ∃ f', op { s with fault := f } = { op s with fault := f' }

/-- An operation that carries any fault set through unread. -/
theorem OpOnlyAddsFaults.of_carried {op : State → State}
    (h : ∀ s f, op { s with fault := f } = { op s with fault := f }) : OpOnlyAddsFaults op where
  kept s := by
    have hsame : op s = { op s with fault := s.fault } := h s s.fault
    rw [hsame]
    exact FaultsKept.refl s
  ungated s f := ⟨f, h s f⟩

/-- An operation that carries all four outer fields through unread. -/
theorem OpOnlyAddsFaults.of_withOuter {op : State → State}
    (h : ∀ f r q p s, op (withOuter f r q p s) = withOuter f r q p (op s)) : OpOnlyAddsFaults op :=
  .of_carried fun s f => by
    have hsame : op s = withOuter s.fault s.result s.lineQueue s.pending (op s) := h s.fault _ _ _ s
    have hset : op { s with fault := f } = withOuter f s.result s.lineQueue s.pending (op s) := h f _ _ _ s
    rw [hset, hsame]
    rfl

theorem OpOnlyAddsFaults.comp {op₁ op₂ : State → State} (h₂ : OpOnlyAddsFaults op₂) (h₁ : OpOnlyAddsFaults op₁) :
    OpOnlyAddsFaults fun s => op₂ (op₁ s) where
  kept s := (h₁.kept s).trans (h₂.kept (op₁ s))
  ungated s f := by
    obtain ⟨f₁, heq₁⟩ := h₁.ungated s f
    obtain ⟨f₂, heq₂⟩ := h₂.ungated (op₁ s) f₁
    exact ⟨f₂, by rw [heq₁, heq₂]⟩

theorem OpOnlyAddsFaults.foldl {α : Type} {op : State → α → State} (h : ∀ a, OpOnlyAddsFaults fun s => op s a)
    (l : List α) : OpOnlyAddsFaults fun s => l.foldl op s := by
  induction l with
  | nil => exact .of_carried fun _ _ => rfl
  | cons a l ih => exact ih.comp (h a)

/-- What is done may depend on the host's line queue, which is no part of the fault set. -/
theorem OpOnlyAddsFaults.of_lineQueue {op : List (List Ch) → State → State} (h : ∀ q, OpOnlyAddsFaults (op q)) :
    OpOnlyAddsFaults fun s => op s.lineQueue s where
  kept s := (h s.lineQueue).kept s
  ungated s f := (h s.lineQueue).ungated s f

/-! ## The operations of the block -/

theorem returns_onlyAddsFaults (r : Result) : OpOnlyAddsFaults (returns r) := .of_carried fun _ _ => rfl

theorem emit_onlyAddsFaults (e : Event) : OpOnlyAddsFaults (emit e) := .of_carried fun _ _ => rfl

theorem takeFrame_onlyAddsFaults (frame : List Byte) : OpOnlyAddsFaults (takeFrame frame) := .of_carried fun _ _ => rfl

theorem clearBuf_onlyAddsFaults : OpOnlyAddsFaults clearBuf := .of_carried fun _ _ => rfl

theorem initializeStore_onlyAddsFaults : OpOnlyAddsFaults initializeStore := .of_carried fun _ _ => rfl

theorem updateRecord_onlyAddsFaults (id : Id) (v : Bool) (raw off cmd : BitVec 16) :
    OpOnlyAddsFaults (updateRecord id v raw off cmd) := .of_carried fun _ _ => rfl

theorem acceptTelem_onlyAddsFaults (p : Page) (t : Telem) : OpOnlyAddsFaults (acceptTelem p t) := by
  have hslots : OpOnlyAddsFaults (storeSlots p t) := .foldl (fun _ => updateRecord_onlyAddsFaults _ _ _ _ _) _
  exact (emit_onlyAddsFaults _).comp (hslots.comp (takeFrame_onlyAddsFaults _))

theorem dispatchFrame_onlyAddsFaults (f : List Byte) : OpOnlyAddsFaults (dispatchFrame f) :=
  .of_withOuter fun g r q p s => dispatchFrame_withOuter g r q p f s

theorem extractFrame_onlyAddsFaults : OpOnlyAddsFaults extractFrame :=
  .of_withOuter extractFrame_withOuter

/-- The one operation that records a fault (R81, R82). -/
theorem feedChunk_onlyAddsFaults (chunk : List Ch) : OpOnlyAddsFaults (feedChunk chunk) where
  kept s := by
    obtain ⟨b, st, fs, ev, heq, _, _, _, hkept⟩ := feedChunk_shape chunk s
    rw [heq]
    exact hkept
  ungated s f := by
    obtain ⟨f', heq, _⟩ := feedChunk_withOuter f s.result s.lineQueue s.pending chunk s
    obtain ⟨b, st, fs, ev, hshape, _⟩ := feedChunk_shape chunk s
    refine ⟨f', heq.trans ?_⟩
    rw [hshape]
    rfl

theorem feedTransaction_onlyAddsFaults (chunk : List Ch) : OpOnlyAddsFaults (feedTransaction chunk) :=
  (returns_onlyAddsFaults _).comp (feedChunk_onlyAddsFaults chunk)

theorem issue_onlyAddsFaults : OpOnlyAddsFaults issue := .of_carried fun _ _ => rfl

theorem requestOnce_onlyAddsFaults : OpOnlyAddsFaults requestOnce := .of_carried fun s f => by
  unfold requestOnce
  by_cases hc : s.cont = true
  · rw [if_pos hc, if_pos hc]
  · rw [if_neg hc, if_neg hc]
    rfl

theorem tickTransaction_onlyAddsFaults (dt : Nat) : OpOnlyAddsFaults (tickTransaction dt) := .of_carried fun s f => by
  by_cases hc : s.cont = true
  · rw [tickTransaction_of_cont hc, tickTransaction_of_cont (s := { s with fault := f }) hc]
  · have hidle : s.cont = false := Bool.eq_false_of_not_eq_true hc
    rw [tickTransaction_of_idle hidle, tickTransaction_of_idle (s := { s with fault := f }) hidle]

theorem enterContinuous_onlyAddsFaults : OpOnlyAddsFaults enterContinuous := .of_carried fun s f => by
  rw [enterContinuous_eq, enterContinuous_eq]

theorem leaveContinuous_onlyAddsFaults : OpOnlyAddsFaults leaveContinuous := .of_carried fun s f => by
  rw [leaveContinuous_eq, leaveContinuous_eq]

/-- R140: taking the oldest line, feeding it and ticking. -/
theorem hostTick_onlyAddsFaults (dt : Nat) : OpOnlyAddsFaults fun s =>
    tickTransaction dt (feedAll (s.lineQueue.take 1) { s with lineQueue := s.lineQueue.tail }) := by
  have htake (q : List (List Ch)) : OpOnlyAddsFaults fun s => { s with lineQueue := q } := .of_carried fun _ _ => rfl
  have hfeed (chunks : List (List Ch)) : OpOnlyAddsFaults (feedAll chunks) :=
    .foldl (fun c => feedTransaction_onlyAddsFaults c) chunks
  exact .of_lineQueue fun q => (tickTransaction_onlyAddsFaults dt).comp ((hfeed (q.take 1)).comp (htake q.tail))

/-! ## The instructions -/

/-- The same of a meaning, by what it answers: a next state keeps the recorded faults, and no fault set changes the
outcome but for the fault set (R176). -/
structure OnlyAddsFaults (meaning : State → Host.Outcome State Fault Refusal) : Prop where
  kept : ∀ s t, meaning s = .next t → FaultsKept s t
  ungated : ∀ s f, AgreeButFault (meaning s) (meaning { s with fault := f })

theorem OpOnlyAddsFaults.next {op : State → State} (h : OpOnlyAddsFaults op) :
    OnlyAddsFaults fun s => .next (op s) where
  kept s _ heq := by
    cases heq
    exact h.kept s
  ungated s f := by
    obtain ⟨f', heq⟩ := h.ungated s f
    rw [heq]
    rfl

/-- A meaning that ends its transaction with a value (R66). -/
theorem OpOnlyAddsFaults.nextReturns {op : State → State} (h : OpOnlyAddsFaults op) (r : Result) :
    OnlyAddsFaults fun s => .next (returns r (op s)) :=
  ((returns_onlyAddsFaults r).comp h).next

/-- A meaning that stops outside its operand domain, which is not the state's (log 16). -/
theorem OnlyAddsFaults.guarded {meaning : State → Host.Outcome State Fault Refusal} (h : OnlyAddsFaults meaning)
    (b : Bool) (r : Fault) : OnlyAddsFaults fun s => if b then meaning s else .fault r := by
  cases b with
  | true => exact h
  | false => exact { kept := fun _ _ heq => (nomatch heq), ungated := fun _ _ => rfl }

/-- Every row of the opcode table but the reset only adds faults. -/
theorem exec_onlyAddsFaults {i : Instr} (hi : i ≠ .hwReset) : OnlyAddsFaults (exec i) := by
  cases i with
  | desync => exact clearBuf_onlyAddsFaults.nextReturns _
  | telemPage0 t => exact ((acceptTelem_onlyAddsFaults .page0 t).nextReturns _).guarded _ _
  | telemPage1 t => exact ((acceptTelem_onlyAddsFaults .page1 t).nextReturns _).guarded _ _
  | otherFrame frame => exact ((takeFrame_onlyAddsFaults frame).nextReturns _).guarded _ _
  | readReq page => exact (returns_onlyAddsFaults _).next
  | allStop => exact (returns_onlyAddsFaults _).next
  | feed chunk => exact (feedTransaction_onlyAddsFaults chunk).next
  | bufReset => exact clearBuf_onlyAddsFaults.nextReturns _
  | storeGet id => exact (OpOnlyAddsFaults.of_carried fun _ _ => rfl).next
  | setCont1 => exact enterContinuous_onlyAddsFaults.nextReturns _
  | setCont0 => exact leaveContinuous_onlyAddsFaults.nextReturns _
  | reqSingle => exact requestOnce_onlyAddsFaults.nextReturns _
  | pacerTick dt => exact (tickTransaction_onlyAddsFaults dt).next
  | buildRead page => exact (returns_onlyAddsFaults _).next
  | buildStop => exact (returns_onlyAddsFaults _).next
  | hwReset => exact absurd rfl hi
  | extract => exact extractFrame_onlyAddsFaults.nextReturns _
  | decodeFrame frame => exact (dispatchFrame_onlyAddsFaults frame).nextReturns _
  | storeInit => exact initializeStore_onlyAddsFaults.nextReturns _
  | storeUpdate id v raw off cmd => exact (updateRecord_onlyAddsFaults id v raw off cmd).nextReturns _
  | issueRequest => exact issue_onlyAddsFaults.nextReturns _
  | finalize pre => exact (returns_onlyAddsFaults _).next.guarded _ _
  | rxCheck frame => exact (returns_onlyAddsFaults _).next.guarded _ _
  | hostTick dt =>
    rw [funext (exec_hostTick dt)]
    exact (hostTick_onlyAddsFaults dt).next
  | feedBytes f => exact (feedTransaction_onlyAddsFaults (hexText f)).next
  | feedChars cs => exact (OpOnlyAddsFaults.foldl (fun c => feedTransaction_onlyAddsFaults [c]) cs).next
  | drain => exact (feedTransaction_onlyAddsFaults []).next

/-! ## The obligations -/

/-- Settles O9, by what a step can be (`step_of_idle`). -/
theorem idleBlockHoldsState : Obligations.IdleBlockHoldsState := fun _ => step_of_idle

/-- Settles O57: an idle step delivers nothing, and a transaction appends to what was delivered
(`HostEffect.events_prefix`). -/
theorem eventsNeverLost : Obligations.EventsNeverLost := by
  intro s t h
  rcases step_cases s with ⟨_, heq⟩ | ⟨x, rest, i, hp, hd, _⟩ | ⟨x, rest, why, _, _, heq⟩
  · rw [heq] at h
    cases h
    exact List.prefix_rfl
  · exact (hostEffect_of_step hp hd h).events_prefix
  · rw [heq] at h
    cases h

/-- Settles O58, by cases on the instruction (`exec_onlyAddsFaults`). -/
theorem faultBitsSticky : Obligations.FaultBitsSticky := fun s t _ hi h => (exec_onlyAddsFaults hi).kept s t h

/-- Settles O59: an instruction that only adds faults does not read them, and the reset overwrites them. -/
theorem faultBitsGateNothing : Obligations.FaultBitsGateNothing := by
  intro s i f
  by_cases hi : i = .hwReset
  · subst hi
    rfl
  · exact (exec_onlyAddsFaults hi).ungated s f

end Sys2Proof.Machine
end

section
/-! The reset (`spec/70_reset_and_hazards.md`, R190, R191): what the reset input leaves in any state, and the values of
Table Z1 that the reset state holds. -/

namespace Sys2Proof.Machine

/-- R190: the reset is the reset transaction followed by the empty answer (R66). -/
theorem exec_hwReset (s : State) : exec .hwReset s = .next (returns .nothing (hardReset s)) := rfl

/-- R190: `hardReset` writes every component of the block, so of the old state only the model's own fields are left
(log 13). -/
theorem hardReset_eq (s : State) : hardReset s = { State.reset with
    events := s.events, result := s.result, lineQueue := s.lineQueue, pending := s.pending } := rfl

/-- R191: every record of the reset state is the fresh one of its identifier. -/
theorem reset_store_get (i : Id) : State.reset.store[i] = initRecord i := initStore_get i

/-! ## The obligations -/

/-- Settles O51: the reset writes every component of the block (`hardReset_eq`), and its empty answer is the value of
`result` in the reset state (log 26). -/
theorem hardResetRestoresTable : Obligations.HardResetRestoresTable := by
  intro s
  rw [exec_hwReset, hardReset_eq]
  rfl

/-- Settles O52: the scalar components are the literals of Table Z1, and the records are the fresh ones
(`reset_store_get`). -/
theorem resetStateValues : Obligations.ResetStateValues := ⟨rfl, rfl, rfl, rfl, rfl, rfl, reset_store_get⟩

end Sys2Proof.Machine
end
